-- ==== Sys2Proof/Word.lean ====
section
/-! DEFINITION. The word type and the types of its five fields (spec/00_scope.md R6 to R8,
spec/10_state.md R20, R21). Every value is unsigned and of fixed width (R8). -/

namespace Sys2Proof

/-- A 32-bit word, also the width of each operand port and of the result port (R6, R20). -/
abbrev Word := BitVec 32

/-- `label`, eight bits (R21). -/
abbrev Label := BitVec 8

/-- `sdi`, the source/destination identifier, two bits (R21). -/
abbrev Sdi := BitVec 2

/-- `value`, nineteen bits, never interpreted by the block (R21, R91). -/
abbrev Value := BitVec 19

/-- `ssm`, the sign/status matrix, two bits (R21). -/
abbrev Ssm := BitVec 2

/-- A single bit, as `parity` is (R21). -/
abbrev Bit := BitVec 1

/-- The 6-bit command word `{fam[1:0], op[3:0]}` (R63). -/
abbrev CommandWord := BitVec 6

end Sys2Proof
end

