-- ==== Sys2Proof/Syntax.lean ====
section
/-! DEFINITION. The commands as syntax: what the host presents on the input pins, the closed enumerations the
spec names, and `Instr`, one constructor per row of spec/opcode_table.json. -/

namespace Sys2Proof

/-- The two `fam` bits of a command word as R65 names them; on a family-blind command they are an assembler
prefix with no effect (R64, R71). -/
inductive FamilyCode where
  | none
  | discrete
  | bnr
  | bcd
deriving DecidableEq, Repr

/-- The three word families (R92). -/
inductive Family where
  | discrete
  | bnr
  | bcd
deriving DecidableEq, Repr

/-- The six distinct members of the three families' closed status enumerations (R66, R92). -/
inductive Status where
  | normalOperation
  | noComputedData
  | functionalTest
  | failureWarning
  | plusNorthEastRightToAbove
  | minusSouthWestLeftFromBelow
deriving DecidableEq, Repr

/-- The four causes of IllegalCommand (R141); the unused codes 5, 6, 7 have no constructor. -/
inductive IllegalCause where
  /-- Raised by command decode: `op` is 12 to 15. -/
  | reservedOpcode
  /-- Raised by command decode: `op` 9 with `fam` not 3, or `op` 10 or 11 with `fam` 0. -/
  | badFamily
  /-- Raised by SET_BIT and GET_BIT: the index operand is 0 or above 19. -/
  | badBitIndex
  /-- Raised by SET_STATUS: the operand is above 7 or no member of the family. -/
  | badStatus
deriving DecidableEq, Repr

/-- A command as the port carries it: the 6-bit command word and the four 32-bit operands beside it (R62). -/
structure Command where
  cmd : CommandWord
  a : Word
  b : Word
  c : Word
  d : Word
deriving DecidableEq, Repr

/-- All the input pins of one step (R62). `reset` stands for the reset pin being asserted, whatever its
polarity; the command pins carry something even when `cmdValid` is false or reset is asserted. -/
structure PortInput where
  reset : Bool
  cmdValid : Bool
  command : Command
deriving DecidableEq, Repr

/-- What a step of the block is (R62): "reset; a command; or idle". -/
inductive PortEvent where
  | reset
  | idle
  | command (c : Command)
deriving DecidableEq, Repr

/-- The sixteen commands, one constructor per row of the opcode table. A constructor carries the operand
ports the command uses, whole and unmasked (the meanings mask them, R67), and the `fam` bits where the row
ignores them (R64). -/
inductive Instr where
  /-- EMPTY (R101). -/
  | empty (fam : FamilyCode)
  /-- DECODE raw (R102). -/
  | decode (fam : FamilyCode) (raw : Word)
  /-- SET_LABEL l (R103). -/
  | setLabel (fam : FamilyCode) (l : Word)
  /-- SET_SDI s (R104). -/
  | setSdi (fam : FamilyCode) (s : Word)
  /-- SET_VALUE v (R105). -/
  | setValue (fam : FamilyCode) (v : Word)
  /-- SET_SSM s (R106). -/
  | setSsm (fam : FamilyCode) (s : Word)
  /-- SET_BIT index, on (R107). -/
  | setBit (fam : FamilyCode) (index on : Word)
  /-- GET_BIT index (R108). -/
  | getBit (fam : FamilyCode) (index : Word)
  /-- GET_SSM (R109). -/
  | getSsm (fam : FamilyCode)
  /-- BCD_NEW label, sdi, value, ssm (R121). -/
  | bcdNew (label sdi value ssm : Word)
  /-- GET_STATUS.D (R122). -/
  | getStatusD
  /-- GET_STATUS.N (R123). -/
  | getStatusN
  /-- GET_STATUS.B (R124). -/
  | getStatusB
  /-- SET_STATUS.D status (R125). -/
  | setStatusD (status : Word)
  /-- SET_STATUS.N status (R126). -/
  | setStatusN (status : Word)
  /-- SET_STATUS.B status (R127). -/
  | setStatusB (status : Word)
deriving DecidableEq, Repr

end Sys2Proof
end

