-- ==== Sys2Proof/Decode.lean ====
section
/-! DEFINITION. Decoding a command, total on every port value and refusing by name (spec/30_encoding.md R73),
then the encoder, written from the other tables of the spec (the op numbers of R64, the family codes of R65
and the field places of R63). -/

namespace Sys2Proof

/-! ### The two fields of a command word (R63) -/

/-- `op = cmd[3:0]`. -/
def opField (cmd : CommandWord) : BitVec 4 := cmd.extractLsb' 0 4

/-- `fam = cmd[5:4]`. -/
def famField (cmd : CommandWord) : BitVec 2 := cmd.extractLsb' 4 2

/-- The family code two `fam` bits spell (R65). -/
def FamilyCode.ofBits (f : BitVec 2) : FamilyCode :=
  match f.getLsbD 1, f.getLsbD 0 with
  | false, false => .none
  | false, true => .discrete
  | true, false => .bnr
  | true, true => .bcd

/-- The `fam` bits of a family code (R65). -/
def FamilyCode.bits (f : FamilyCode) : BitVec 2 :=
  match f with
  | .none => 0#2
  | .discrete => 1#2
  | .bnr => 2#2
  | .bcd => 3#2

/-- The family prefix a command carries. -/
def Command.fam (c : Command) : FamilyCode := FamilyCode.ofBits (famField c.cmd)

/-! ### Decoding (R73) -/

/-- One row of R73's table: it matches when `cmd & mask = pattern`, and then builds the command's syntax from
the operand ports that R64 says the row uses. -/
structure OpcodeRow where
  mask : CommandWord
  pattern : CommandWord
  build : Command → Instr

/-- Does the row match the command word? -/
def OpcodeRow.hits (row : OpcodeRow) (cmd : CommandWord) : Bool := cmd &&& row.mask == row.pattern

/-- The nine family-blind rows of R73. -/
def baseRows : List OpcodeRow :=
  [⟨0x0F#6, 0x00#6, fun c => .empty c.fam⟩,
   ⟨0x0F#6, 0x01#6, fun c => .decode c.fam c.a⟩,
   ⟨0x0F#6, 0x02#6, fun c => .setLabel c.fam c.a⟩,
   ⟨0x0F#6, 0x03#6, fun c => .setSdi c.fam c.a⟩,
   ⟨0x0F#6, 0x04#6, fun c => .setValue c.fam c.a⟩,
   ⟨0x0F#6, 0x05#6, fun c => .setSsm c.fam c.a⟩,
   ⟨0x0F#6, 0x06#6, fun c => .setBit c.fam c.a c.b⟩,
   ⟨0x0F#6, 0x07#6, fun c => .getBit c.fam c.a⟩,
   ⟨0x0F#6, 0x08#6, fun c => .getSsm c.fam⟩]

/-- The seven family-specific rows of R73. -/
def familyRows : List OpcodeRow :=
  [⟨0x3F#6, 0x39#6, fun c => .bcdNew c.a c.b c.c c.d⟩,
   ⟨0x3F#6, 0x1A#6, fun _ => .getStatusD⟩,
   ⟨0x3F#6, 0x2A#6, fun _ => .getStatusN⟩,
   ⟨0x3F#6, 0x3A#6, fun _ => .getStatusB⟩,
   ⟨0x3F#6, 0x1B#6, fun c => .setStatusD c.a⟩,
   ⟨0x3F#6, 0x2B#6, fun c => .setStatusN c.a⟩,
   ⟨0x3F#6, 0x3B#6, fun c => .setStatusB c.a⟩]

/-- R73's table, the sixteen rows of spec/opcode_table.json in its order. -/
def opcodeTable : List OpcodeRow := baseRows ++ familyRows

/-- Decoding by first match; where no row matches, ReservedOpcode if `op >= 12` and BadFamily otherwise (R73).
The operand-dependent causes are raised by the command that is selected. -/
def decodeCommand (c : Command) : Except IllegalCause Instr :=
  match opcodeTable.find? (fun row => row.hits c.cmd) with
  | some row => .ok (row.build c)
  | none => .error (if (opField c.cmd).toNat ≥ 12 then .reservedOpcode else .badFamily)

/-! ### Encoding (R63 to R65) -/

/-- The command word with the given `fam` bits and operation number (R63). -/
def commandWord (f : FamilyCode) (op : Nat) : CommandWord := f.bits ++ BitVec.ofNat 4 op

/-- The command word of an instruction, by the operation numbers of R64. -/
def Instr.word (i : Instr) : CommandWord :=
  match i with
  | .empty f => commandWord f 0
  | .decode f _ => commandWord f 1
  | .setLabel f _ => commandWord f 2
  | .setSdi f _ => commandWord f 3
  | .setValue f _ => commandWord f 4
  | .setSsm f _ => commandWord f 5
  | .setBit f _ _ => commandWord f 6
  | .getBit f _ => commandWord f 7
  | .getSsm f => commandWord f 8
  | .bcdNew _ _ _ _ => commandWord .bcd 9
  | .getStatusD => commandWord .discrete 10
  | .getStatusN => commandWord .bnr 10
  | .getStatusB => commandWord .bcd 10
  | .setStatusD _ => commandWord .discrete 11
  | .setStatusN _ => commandWord .bnr 11
  | .setStatusB _ => commandWord .bcd 11

/-- The command that carries an instruction: its word and its operands on the ports of R64, in the order
`a`, `b`, `c`, `d`; the ports it does not use carry 0, which a host may replace by any value (R71). -/
def encode (i : Instr) : Command :=
  match i with
  | .empty _ => ⟨i.word, 0, 0, 0, 0⟩
  | .decode _ raw => ⟨i.word, raw, 0, 0, 0⟩
  | .setLabel _ l => ⟨i.word, l, 0, 0, 0⟩
  | .setSdi _ s => ⟨i.word, s, 0, 0, 0⟩
  | .setValue _ v => ⟨i.word, v, 0, 0, 0⟩
  | .setSsm _ s => ⟨i.word, s, 0, 0, 0⟩
  | .setBit _ index on => ⟨i.word, index, on, 0, 0⟩
  | .getBit _ index => ⟨i.word, index, 0, 0, 0⟩
  | .getSsm _ => ⟨i.word, 0, 0, 0, 0⟩
  | .bcdNew label sdi value ssm => ⟨i.word, label, sdi, value, ssm⟩
  | .getStatusD => ⟨i.word, 0, 0, 0, 0⟩
  | .getStatusN => ⟨i.word, 0, 0, 0, 0⟩
  | .getStatusB => ⟨i.word, 0, 0, 0, 0⟩
  | .setStatusD status => ⟨i.word, status, 0, 0, 0⟩
  | .setStatusN status => ⟨i.word, status, 0, 0, 0⟩
  | .setStatusB status => ⟨i.word, status, 0, 0, 0⟩

/-- The row's mnemonic, as the opcode table spells it. -/
def Instr.mnemonic (i : Instr) : String :=
  match i with
  | .empty _ => "EMPTY"
  | .decode _ _ => "DECODE"
  | .setLabel _ _ => "SET_LABEL"
  | .setSdi _ _ => "SET_SDI"
  | .setValue _ _ => "SET_VALUE"
  | .setSsm _ _ => "SET_SSM"
  | .setBit _ _ _ => "SET_BIT"
  | .getBit _ _ => "GET_BIT"
  | .getSsm _ => "GET_SSM"
  | .bcdNew _ _ _ _ => "BCD_NEW"
  | .getStatusD => "GET_STATUS.D"
  | .getStatusN => "GET_STATUS.N"
  | .getStatusB => "GET_STATUS.B"
  | .setStatusD _ => "SET_STATUS.D"
  | .setStatusN _ => "SET_STATUS.N"
  | .setStatusB _ => "SET_STATUS.B"

/-! ### The opcode table's words -/

/-- The command an opcode-table word of `nbits` bits stands for: the six command pins carry its low six bits
(the table's whole byte has two bits more, which are no part of the command word, R63), and every operand
port carries 0 (log entry 4). -/
def tableCommand (nbits w : Nat) : Command := ⟨BitVec.ofNat 6 (w % 2 ^ nbits), 0, 0, 0, 0⟩

/-- The instruction the decoder reads from an opcode-table word. -/
def decodeTableWord (nbits w : Nat) : Option Instr :=
  match decodeCommand (tableCommand nbits w) with
  | .ok i => some i
  | .error _ => none

end Sys2Proof
end

