-- ==== Sys2Proof/Machine/Operands.lean ====
section
/-! DEFINITION. Operand forms and the field demultiplexer and multiplexer (spec/40_combinational_core.md
sections 1 to 3; spec/30_encoding.md R60, R67, R68). Pure functions over words; none of them touches State. -/

namespace Sys2Proof.Machine

/-! ### Masking (R80): an over-wide operand loses its high bits, and nothing is reported -/

/-- `Mask_label(x) = x[7:0]` (R80). -/
def maskLabel (x : Word) : Label := x.extractLsb' 0 8

/-- `Mask_sdi(x) = x[1:0]` (R80). -/
def maskSdi (x : Word) : Sdi := x.extractLsb' 0 2

/-- `Mask_value(x) = x[18:0]` (R80). -/
def maskValue (x : Word) : Value := x.extractLsb' 0 19

/-- `Mask_ssm(x) = x[1:0]` (R80). -/
def maskSsm (x : Word) : Ssm := x.extractLsb' 0 2

/-! ### Field demultiplexer (R81) -/

/-- `r[7:0]` (R21, R81). -/
def labelOf (r : Word) : Label := r.extractLsb' 0 8

/-- `r[9:8]` (R21, R81). -/
def sdiOf (r : Word) : Sdi := r.extractLsb' 8 2

/-- `r[28:10]` (R21, R81). -/
def valueOf (r : Word) : Value := r.extractLsb' 10 19

/-- `r[30:29]` (R21, R81). -/
def ssmOf (r : Word) : Ssm := r.extractLsb' 29 2

/-- `r[31]` (R21, R81). -/
def parityOf (r : Word) : Bit := r.extractLsb' 31 1

/-- The five fields of a word. -/
structure Fields where
  label : Label
  sdi : Sdi
  value : Value
  ssm : Ssm
  parity : Bit
deriving DecidableEq, Repr

/-- `Demux(r)` (R81). -/
def demux (r : Word) : Fields := ⟨labelOf r, sdiOf r, valueOf r, ssmOf r, parityOf r⟩

/-- One row of the bit-layout table (R60): offset, width, and the mask that applies after shifting down. -/
structure FieldRow where
  offset : Nat
  width : Nat
  mask : Nat
deriving DecidableEq, Repr

/-- The bit-layout table of R60, rows label, sdi, value, ssm, parity. The slices above do not use it; a
statement holds the two against each other. -/
def layout : List FieldRow :=
  [⟨0, 8, 0xFF⟩, ⟨8, 2, 0x3⟩, ⟨10, 19, 0x7FFFF⟩, ⟨29, 2, 0x3⟩, ⟨31, 1, 0x1⟩]

/-- A field read the second way R81 gives: shift the word down by the offset, then mask. -/
def FieldRow.read (row : FieldRow) (r : Word) : Nat := (r.toNat >>> row.offset) &&& row.mask

/-! ### Field multiplexer (R82, R86) -/

/-- `Composite(label, sdi, value, ssm)` (R82): bit 31 is zero. -/
def composite (l : Label) (s : Sdi) (v : Value) (m : Ssm) : Word :=
  l.setWidth 32 ||| (s.setWidth 32 <<< 8) ||| (v.setWidth 32 <<< 10) ||| (m.setWidth 32 <<< 29)

/-- `Recombine(label, sdi, value, ssm, parity)` (R86). -/
def recombine (l : Label) (s : Sdi) (v : Value) (m : Ssm) (p : Bit) : Word :=
  composite l s v m ||| (p.setWidth 32 <<< 31)

/-- `Recombine` of a five-tuple, as R87 applies it to `Demux`. -/
def Fields.recombine (t : Fields) : Word :=
  Sys2Proof.Machine.recombine t.label t.sdi t.value t.ssm t.parity

/-! ### The bit-index and `on` operands of SET_BIT and GET_BIT (R68) -/

/-- The bit of `value` a bit-index operand selects: `a - 1` if `1 <= a <= 19`, compared as the whole 32-bit
unsigned operand; none where R68 and R69 refuse it. -/
def bitIndex (a : Word) : Option Nat :=
  if 1 ≤ a.toNat ∧ a.toNat ≤ 19 then some (a.toNat - 1) else none

/-- `on = b[0]`; `b[31:1]` is ignored (R68). -/
def onOperand (b : Word) : Bool := b.getLsbD 0

/-- `v'` of R107: bit `k` of the value set or cleared, by 19-bit operations. -/
def withValueBit (v : Value) (k : Nat) (on : Bool) : Value :=
  if on then v ||| (1#19 <<< k) else v &&& ~~~(1#19 <<< k)

end Sys2Proof.Machine
end

