-- ==== Sys2Proof/Machine/Flags.lean ====
section
/-! DEFINITION. The parity calculator (spec/40_combinational_core.md section 4). `W.parity` is the block's
only flag-like state (spec/10_state.md R24), and this is the only flag computation the spec gives. -/

namespace Sys2Proof.Machine

/-- `Fold(c)` (R83): XOR with itself shifted right by 16, 8, 4 in turn, then the low four bits. -/
def fold (c : Word) : BitVec 4 :=
  let f1 := c ^^^ (c >>> 16)
  let f2 := f1 ^^^ (f1 >>> 8)
  let f3 := f2 ^^^ (f2 >>> 4)
  f3.extractLsb' 0 4

/-- The parity table `T = 0x6996` (R84; its literal, not the source's prose gloss: 90_conflicts.md C3). -/
def parityTable : BitVec 16 := 0x6996#16

/-- `T[n] = (0x6996 >> n) & 1` (R84). -/
def parityEntry (n : BitVec 4) : Bit := (parityTable >>> n.toNat).extractLsb' 0 1

/-- `ParityBit(label, sdi, value, ssm) = 1 - T[Fold(Composite(...))]`, the step form (R85). -/
def parityBit (l : Label) (s : Sdi) (v : Value) (m : Ssm) : Bit :=
  1#1 - parityEntry (fold (composite l s v m))

/-- `popcount(v)`, the number of bits of `v` that are 1 (R9). -/
def popcount {n : Nat} (v : BitVec n) : Nat :=
  ((List.range n).map fun i => (v.getLsbD i).toNat).sum

/-- `ParityOK(r)`: popcount(r) is odd (R25, R95). -/
def parityOK (r : Word) : Bool := popcount r % 2 == 1

end Sys2Proof.Machine
end

