-- ==== Sys2Proof/Machine/State.lean ====
section
/-! DEFINITION. The state of the block (spec/10_state.md R20: one register, `W`), with the two fields of the
model's own that carry what passes at its ports, its state after reset, and the reasons a step can stop. -/

namespace Sys2Proof.Machine

/-- What the response port shows in a step (R9, R31, R62): `respond_none`, `respond(v)`, or the refusal of
IllegalCommand with its cause (R141). The four signals are read off it in Machine/Ops.lean. -/
inductive Response where
  | silent
  | answer (v : Word)
  | illegal (cause : IllegalCause)
deriving DecidableEq, Repr

/-- The state. `w` is the spec's whole architectural state (R20); its five fields are slices of it (R21) and
are not stored a second time (R34). -/
structure State where
  /-- `W`, the 32-bit Word register (R20). -/
  w : Word
  /-- The model's own: what the response port showed in the step just taken. No step reads it (R31; log 3). -/
  response : Response
  /-- The model's own: what the host will present on the input pins, oldest first (R26, R49; log 1). -/
  inputs : List PortInput
deriving DecidableEq, Repr

/-- Reasons to stop with a fault. There are none: "none of these operations can fail" (R140), and no rule of
the spec stops the block (R149: "the block never halts"). The type is closed and empty, so a step that ends
in a fault cannot be written (log 5). -/
inductive Fault where
deriving DecidableEq, Repr

/-- Reasons to stop without a meaning. -/
inductive Refusal where
  /-- Raised by an arm of `exec` whose instruction has no meaning yet, and by nothing else; safe, since the
  machine stops where the hardware goes on. No arm raises it now. -/
  | notModelled (mnemonic : String)
deriving DecidableEq, Repr

/-- The outcome of a step of this machine. -/
abbrev Result := Host.Outcome State Fault Refusal

/-- The state after reset (R32, R160, R161): `W = 0`, the response signals 0; the host has presented nothing
yet (log 1). The parity bit is 0 and is not the odd-parity completion of the other bits (R161). -/
def State.reset : State := ⟨0x00000000#32, .silent, []⟩

end Sys2Proof.Machine
end

