-- ==== Sys2Proof/Machine/Ops.lean ====
section
/-! DEFINITION. The shared operations over State: writing `W`, responding, the common commit step, the one
exception, the events that are no command, the input pins and the outputs. -/

namespace Sys2Proof.Machine

/-! ### Writing the word and giving the response (R9) -/

/-- `W <- v`: the one write of the 32-bit register a command makes (R9, R46). -/
def State.writeWord (s : State) (v : Word) : State := { s with w := v }

/-- The response port shows `r` in this step. -/
def State.give (s : State) (r : Response) : State := { s with response := r }

/-- `respond(v)` with `v` already extended to 32 bits (R9). -/
def respond (v : Word) (s : State) : Result := .next (s.give (.answer v))

/-- `W <- v; respond_none` (R9). -/
def writeSilently (v : Word) (s : State) : Result := .next ((s.writeWord v).give .silent)

/-- `Commit(l, s, v, m)` (R100): compute the parity bit, recombine, write `W`, respond nothing. The old `W` and
its parity bit are no inputs. -/
def commit (l : Label) (sdi : Sdi) (v : Value) (m : Ssm) (s : State) : Result :=
  writeSilently (recombine l sdi v m (parityBit l sdi v m)) s

/-! ### The one exception (R141 to R144) -/

/-- `raise IllegalCommand(cause)` (R9, R141): `W` is not written, the response reports the cause, nothing else
is recorded. It transfers no control and there is nothing to return from (R143, R144). -/
def raiseIllegal (cause : IllegalCause) (s : State) : Result := .next (s.give (.illegal cause))

/-- The `ill_cause` code of a cause (R141). -/
def causeCode (cause : IllegalCause) : BitVec 3 :=
  match cause with
  | .reservedOpcode => 1#3
  | .badFamily => 2#3
  | .badBitIndex => 3#3
  | .badStatus => 4#3

/-! ### The response signals (R9, R62, R141) -/

/-- `ill`. -/
def Response.ill (r : Response) : Bool :=
  match r with
  | .silent => false
  | .answer _ => false
  | .illegal _ => true

/-- `ill_cause[2:0]`. -/
def Response.illCause (r : Response) : BitVec 3 :=
  match r with
  | .silent => 0#3
  | .answer _ => 0#3
  | .illegal cause => causeCode cause

/-- `res_valid`. -/
def Response.resValid (r : Response) : Bool :=
  match r with
  | .silent => false
  | .answer _ => true
  | .illegal _ => false

/-- `res[31:0]`. -/
def Response.res (r : Response) : Word :=
  match r with
  | .silent => 0#32
  | .answer v => v
  | .illegal _ => 0#32

/-! ### The continuous outputs (R30) -/

/-- `raw_o`. -/
def State.rawO (s : State) : Word := s.w

/-- `label_o`. -/
def State.labelO (s : State) : Label := labelOf s.w

/-- `sdi_o`. -/
def State.sdiO (s : State) : Sdi := sdiOf s.w

/-- `value_o`. -/
def State.valueO (s : State) : Value := valueOf s.w

/-- `ssm_o`. -/
def State.ssmO (s : State) : Ssm := ssmOf s.w

/-- `parity_o`. -/
def State.parityO (s : State) : Bit := parityOf s.w

/-- `pcalc_o`, the parity calculator's answer for the fields now held. -/
def State.pcalcO (s : State) : Bit := parityBit s.labelO s.sdiO s.valueO s.ssmO

/-! ### The input pins and the events that are no command (R62, R160) -/

/-- An idle port: `cmd_valid = 0`, reset not asserted. -/
def idlePins : PortInput := ⟨false, false, ⟨0, 0, 0, 0, 0⟩⟩

/-- Take what the host presents in this step; with nothing left in the list the port is idle (R149: the host
may "leave the port idle for any number of steps"; log 2). -/
def takeInput (s : State) : PortInput × State :=
  match s.inputs with
  | [] => (idlePins, s)
  | pins :: rest => (pins, { s with inputs := rest })

/-- Which kind of step the pins ask for: reset discards any command presented with it (R160); then a command
if `cmd_valid`; else idle (R62). -/
def eventOf (pins : PortInput) : PortEvent :=
  if pins.reset then .reset else if pins.cmdValid then .command pins.command else .idle

/-- The reset event: `W <- 0` and the response signals 0 (R160). -/
def resetEvent (s : State) : Result := writeSilently 0x00000000#32 s

/-- The idle step: `W` unchanged, the response signals 0 (R62). -/
def idleEvent (s : State) : Result := .next (s.give .silent)

/-- The pins of a step in which the host presents a command. -/
def present (c : Command) : PortInput := ⟨false, true, c⟩

end Sys2Proof.Machine
end

