-- ==== Sys2Proof/Machine/BaseWord.lean ====
section
/-! DEFINITION. The nine Base Word commands (spec/41_base_word.md). -/

namespace Sys2Proof.Machine

/-- EMPTY (R101): `W <- 0`; the parity calculator is not used. -/
def execEmpty (s : State) : Result := writeSilently 0x00000000#32 s

/-- DECODE (R102): `W <- a`, the parity bit verbatim. -/
def execDecode (raw : Word) (s : State) : Result := writeSilently raw s

/-- SET_LABEL (R103). -/
def execSetLabel (l : Word) (s : State) : Result :=
  commit (maskLabel l) (sdiOf s.w) (valueOf s.w) (ssmOf s.w) s

/-- SET_SDI (R104). -/
def execSetSdi (x : Word) (s : State) : Result :=
  commit (labelOf s.w) (maskSdi x) (valueOf s.w) (ssmOf s.w) s

/-- SET_VALUE (R105). -/
def execSetValue (v : Word) (s : State) : Result :=
  commit (labelOf s.w) (sdiOf s.w) (maskValue v) (ssmOf s.w) s

/-- SET_SSM (R106). -/
def execSetSsm (x : Word) (s : State) : Result :=
  commit (labelOf s.w) (sdiOf s.w) (valueOf s.w) (maskSsm x) s

/-- SET_BIT (R107). -/
def execSetBit (index on : Word) (s : State) : Result :=
  match bitIndex index with
  | none => raiseIllegal .badBitIndex s
  | some k =>
    commit (labelOf s.w) (sdiOf s.w) (withValueBit (valueOf s.w) k (onOperand on)) (ssmOf s.w) s

/-- GET_BIT (R108). -/
def execGetBit (index : Word) (s : State) : Result :=
  match bitIndex index with
  | none => raiseIllegal .badBitIndex s
  | some k => respond (((valueOf s.w).extractLsb' k 1).setWidth 32) s

/-- GET_SSM (R109). -/
def execGetSsm (s : State) : Result := respond ((ssmOf s.w).setWidth 32) s

end Sys2Proof.Machine
end

