-- ==== Sys2Proof/Machine/Validator.lean ====
section
/-! DEFINITION. The status validator (spec/40_combinational_core.md section 6) and the 3-bit status codes of
the ports (spec/30_encoding.md R66). -/

namespace Sys2Proof.Machine

/-- `Status(fam, s)` (R92), the source's table row by row; the two Booleans are bits 1 and 0 of the code. -/
def statusOf (fam : Family) (s : Ssm) : Status :=
  match fam, s.getLsbD 1, s.getLsbD 0 with
  | .discrete, false, false => .normalOperation
  | .discrete, false, true => .noComputedData
  | .discrete, true, false => .functionalTest
  | .discrete, true, true => .failureWarning
  | .bnr, false, false => .failureWarning
  | .bnr, false, true => .noComputedData
  | .bnr, true, false => .functionalTest
  | .bnr, true, true => .normalOperation
  | .bcd, false, false => .plusNorthEastRightToAbove
  | .bcd, false, true => .noComputedData
  | .bcd, true, false => .functionalTest
  | .bcd, true, true => .minusSouthWestLeftFromBelow

/-- `StatusCode(fam, m)` (R93); none where `m` is not a member of the family. -/
def statusCode (fam : Family) (m : Status) : Option Ssm :=
  match fam, m with
  | .discrete, .normalOperation => some 0b00#2
  | .discrete, .noComputedData => some 0b01#2
  | .discrete, .functionalTest => some 0b10#2
  | .discrete, .failureWarning => some 0b11#2
  | .discrete, .plusNorthEastRightToAbove => none
  | .discrete, .minusSouthWestLeftFromBelow => none
  | .bnr, .normalOperation => some 0b11#2
  | .bnr, .noComputedData => some 0b01#2
  | .bnr, .functionalTest => some 0b10#2
  | .bnr, .failureWarning => some 0b00#2
  | .bnr, .plusNorthEastRightToAbove => none
  | .bnr, .minusSouthWestLeftFromBelow => none
  | .bcd, .normalOperation => none
  | .bcd, .noComputedData => some 0b01#2
  | .bcd, .functionalTest => some 0b10#2
  | .bcd, .failureWarning => none
  | .bcd, .plusNorthEastRightToAbove => some 0b00#2
  | .bcd, .minusSouthWestLeftFromBelow => some 0b11#2

/-- The 3-bit status code of a member (R66). -/
def statusNumber (m : Status) : BitVec 3 :=
  match m with
  | .normalOperation => 0#3
  | .noComputedData => 1#3
  | .functionalTest => 2#3
  | .failureWarning => 3#3
  | .plusNorthEastRightToAbove => 4#3
  | .minusSouthWestLeftFromBelow => 5#3

/-- The member a 3-bit status code names; codes 6 and 7 are reserved (R66). -/
def statusOfNumber (n : BitVec 3) : Option Status :=
  match n.getLsbD 2, n.getLsbD 1, n.getLsbD 0 with
  | false, false, false => some .normalOperation
  | false, false, true => some .noComputedData
  | false, true, false => some .functionalTest
  | false, true, true => some .failureWarning
  | true, false, false => some .plusNorthEastRightToAbove
  | true, false, true => some .minusSouthWestLeftFromBelow
  | true, true, false => none
  | true, true, true => none

/-- What the status operand of SET_STATUS writes into `ssm` for a family (R125 to R127): none if the whole
operand is above 7, if `a[2:0]` is reserved, or if the member is not the family's. -/
def statusOperand (fam : Family) (a : Word) : Option Ssm :=
  if a.toNat > 7 then none
  else (statusOfNumber (a.extractLsb' 0 3)).bind (statusCode fam)

end Sys2Proof.Machine
end

