-- ==== Sys2Proof/Machine/WordFamilies.lean ====
section
/-! DEFINITION. The seven word-family commands (spec/42_word_families.md). -/

namespace Sys2Proof.Machine

/-- GET_STATUS for a family: `respond(Status(fam, W.ssm))` as its 3-bit code (R122 to R124). -/
def getStatus (fam : Family) (s : State) : Result :=
  respond ((statusNumber (statusOf fam (ssmOf s.w))).setWidth 32) s

/-- SET_STATUS for a family: commit the member's `ssm` code, or refuse what is no member (R125 to R127). -/
def setStatus (fam : Family) (status : Word) (s : State) : Result :=
  match statusOperand fam status with
  | none => raiseIllegal .badStatus s
  | some m => commit (labelOf s.w) (sdiOf s.w) (valueOf s.w) m s

/-- BCD_NEW (R121): every field from its operand, the previous word wholly discarded. -/
def execBcdNew (label sdi value ssm : Word) (s : State) : Result :=
  commit (maskLabel label) (maskSdi sdi) (maskValue value) (maskSsm ssm) s

/-- GET_STATUS.D (R122). -/
def execGetStatusD (s : State) : Result := getStatus .discrete s

/-- GET_STATUS.N (R123). -/
def execGetStatusN (s : State) : Result := getStatus .bnr s

/-- GET_STATUS.B (R124). -/
def execGetStatusB (s : State) : Result := getStatus .bcd s

/-- SET_STATUS.D (R125). -/
def execSetStatusD (status : Word) (s : State) : Result := setStatus .discrete status s

/-- SET_STATUS.N (R126). -/
def execSetStatusN (status : Word) (s : State) : Result := setStatus .bnr status s

/-- SET_STATUS.B (R127). -/
def execSetStatusB (status : Word) (s : State) : Result := setStatus .bcd status s

end Sys2Proof.Machine
end

