-- ==== Sys2Proof/Machine/Dispatch.lean ====
section
/-! DEFINITION. One arm per command: each calls its meaning. -/

namespace Sys2Proof.Machine

/-- What a decoded command does to a state whose input of this step has been taken. -/
def exec (i : Instr) (s : State) : Host.Outcome State Fault Refusal :=
  match i with
  -- Base Word (spec/41_base_word.md)
  | .empty _ => Sys2Proof.Machine.execEmpty s
  | .decode _ raw => Sys2Proof.Machine.execDecode raw s
  | .setLabel _ l => Sys2Proof.Machine.execSetLabel l s
  | .setSdi _ x => Sys2Proof.Machine.execSetSdi x s
  | .setValue _ v => Sys2Proof.Machine.execSetValue v s
  | .setSsm _ x => Sys2Proof.Machine.execSetSsm x s
  | .setBit _ index on => Sys2Proof.Machine.execSetBit index on s
  | .getBit _ index => Sys2Proof.Machine.execGetBit index s
  | .getSsm _ => Sys2Proof.Machine.execGetSsm s
  -- Word families (spec/42_word_families.md)
  | .bcdNew label sdi value ssm => Sys2Proof.Machine.execBcdNew label sdi value ssm s
  | .getStatusD => Sys2Proof.Machine.execGetStatusD s
  | .getStatusN => Sys2Proof.Machine.execGetStatusN s
  | .getStatusB => Sys2Proof.Machine.execGetStatusB s
  | .setStatusD status => Sys2Proof.Machine.execSetStatusD status s
  | .setStatusN status => Sys2Proof.Machine.execSetStatusN status s
  | .setStatusB status => Sys2Proof.Machine.execSetStatusB status s

end Sys2Proof.Machine
end

