-- ==== Sys2Proof/Machine/Step.lean ====
section
/-! DEFINITION. One step of the block (spec/30_encoding.md R62): reset, a command, or idle. -/

namespace Sys2Proof.Machine

/-- Take what the host presents and do it: reset, idle, or decode the command and run it; a command word that
decodes to nothing takes IllegalCommand with the decoder's cause (R73, R141, R168). -/
def step (s : State) : Host.Outcome State Fault Refusal :=
  match eventOf (takeInput s).1 with
  | .reset => resetEvent (takeInput s).2
  | .idle => idleEvent (takeInput s).2
  | .command c =>
    match decodeCommand c with
    | .ok i => exec i (takeInput s).2
    | .error cause => raiseIllegal cause (takeInput s).2

/-- The state in which the host presents an opcode-table word next, its operand ports carrying 0, before
whatever it had to present already (log 4). -/
def State.withFetchWord (s : State) (nbits w : Nat) : State :=
  { s with inputs := present (tableCommand nbits w) :: s.inputs }

end Sys2Proof.Machine
end

