-- ==== Sys2Proof/Config.lean ====
section
/-! DEFINITION. What an implementation fixes and the spec leaves open. spec/00_scope.md R6 lists the
parameters: every one but the last has a value, which stands where it is used (the widths in Word.lean, the
offsets and masks and the bit-index range in Machine/Operands.lean, the parity table in Machine/Flags.lean).
Clock, reset polarity, synchrony and pipeline depth are "not observable in the model" (R6) and have no Lean
counterpart. -/

namespace Sys2Proof

/-- `StoreTextFormat`, the one OPEN parameter (R6, 92_eei_decisions.md D16): how the host's adapter, outside
the block, renders a 32-bit word as the text it writes to the named-variable store. It has no body, so
nothing can be proved of a particular format (log entry 8). -/
opaque Config.storeTextFormat : Word → String

end Sys2Proof
end

