-- ==== Sys2Proof/Machine/Adapter.lean ====
section
/-! DEFINITION. What stands around the block in the spec's own words: the assembler's aliases and line form
(spec/30_encoding.md R71, R72) and the two things the host's store adapter does (spec/20_memory.md R40). None
of it is part of a step. -/

namespace Sys2Proof.Machine

/-! ### Aliases (R72) -/

/-- `SET raw` is `DECODE raw`. -/
def aliasSet (f : FamilyCode) (raw : Word) : Instr := .decode f raw

/-- `ENCODE l, s, v, m` is `BCD_NEW l, s, v, m`. -/
def aliasEncode (l s v m : Word) : Instr := .bcdNew l s v m

/-- `CLR_BIT i` is `SET_BIT i, 0`. -/
def aliasClrBit (f : FamilyCode) (index : Word) : Instr := .setBit f index 0

/-- The variant `set_ssm(member)` is `SET_STATUS.x member`; a member's name stands for its code (R71). -/
def aliasSetSsm (fam : Family) (m : Status) : Instr :=
  match fam with
  | .discrete => .setStatusD ((statusNumber m).setWidth 32)
  | .bnr => .setStatusN ((statusNumber m).setWidth 32)
  | .bcd => .setStatusB ((statusNumber m).setWidth 32)

/-- The variant `get_ssm()` is `GET_STATUS.x`. -/
def aliasGetSsm (fam : Family) : Instr :=
  match fam with
  | .discrete => .getStatusD
  | .bnr => .getStatusN
  | .bcd => .getStatusB

/-! ### An assembler line (R71), its text split into prefix, mnemonic and operands -/

/-- The mnemonics a line may begin with: the table's sixteen and the aliases of R72. -/
inductive Mnemonic where
  | empty | decode | setLabel | setSdi | setValue | setSsm | setBit | getBit | getSsm
  | bcdNew | getStatus (fam : Family) | setStatus (fam : Family)
  | set | encode | clrBit
deriving DecidableEq, Repr

/-- An operand as written: a number, or the name of a status member. -/
inductive AsmOperand where
  | number (n : Word)
  | member (m : Status)
deriving DecidableEq, Repr

/-- The command a line assembles to, operands in the order of the ports `a`, `b`, `c`, `d`; none where the
line has the wrong operands. Only a family-blind command may carry a prefix, and only SET_STATUS takes a
member's name (R71). -/
def assemble (pre : FamilyCode) (m : Mnemonic) (ops : List AsmOperand) : Option Instr :=
  match m, pre, ops with
  | .empty, f, [] => some (.empty f)
  | .decode, f, [.number raw] => some (.decode f raw)
  | .set, f, [.number raw] => some (aliasSet f raw)
  | .setLabel, f, [.number l] => some (.setLabel f l)
  | .setSdi, f, [.number s] => some (.setSdi f s)
  | .setValue, f, [.number v] => some (.setValue f v)
  | .setSsm, f, [.number s] => some (.setSsm f s)
  | .setBit, f, [.number i, .number on] => some (.setBit f i on)
  | .clrBit, f, [.number i] => some (aliasClrBit f i)
  | .getBit, f, [.number i] => some (.getBit f i)
  | .getSsm, f, [] => some (.getSsm f)
  | .bcdNew, .none, [.number l, .number s, .number v, .number q] => some (.bcdNew l s v q)
  | .encode, .none, [.number l, .number s, .number v, .number q] => some (aliasEncode l s v q)
  | .getStatus fam, .none, [] => some (aliasGetSsm fam)
  | .setStatus .discrete, .none, [.number n] => some (.setStatusD n)
  | .setStatus .bnr, .none, [.number n] => some (.setStatusN n)
  | .setStatus .bcd, .none, [.number n] => some (.setStatusB n)
  | .setStatus fam, .none, [.member q] => some (aliasSetSsm fam q)
  | _, _, _ => none

/-! ### The text of a line (R71; log 11) -/

/-- A digit of the given radix, or none. -/
def digit (radix : Nat) (c : Char) : Option Nat :=
  let n := c.toNat
  let d := if n ≥ 97 then n - 87 else if n ≥ 65 then n - 55 else n - 48
  if 48 ≤ n ∧ (n ≤ 57 ∨ 65 ≤ n) ∧ d < radix then some d else none

/-- The number a list of digits spells after what was read already; none where a character is no digit. -/
def digits (radix : Nat) : List Char → Nat → Option Nat
  | [], acc => some acc
  | c :: cs, acc => (digit radix c).bind fun d => digits radix cs (radix * acc + d)

/-- A number in decimal, `0x` hexadecimal or `0b` binary that fits an operand port. -/
def readNumber (cs : List Char) : Option Word :=
  let n := match cs with
    | [] => none
    | ['0', 'x'] => none
    | ['0', 'b'] => none
    | '0' :: 'x' :: ds => digits 16 ds 0
    | '0' :: 'b' :: ds => digits 2 ds 0
    | ds => digits 10 ds 0
  n.bind fun v => if v < 2 ^ 32 then some (BitVec.ofNat 32 v) else none

/-- The names of the six status members (R66). -/
def memberNames : List (List Char × Status) :=
  [("NormalOperation".toList, .normalOperation), ("NoComputedData".toList, .noComputedData),
   ("FunctionalTest".toList, .functionalTest), ("FailureWarning".toList, .failureWarning),
   ("PlusNorthEastRightToAbove".toList, .plusNorthEastRightToAbove),
   ("MinusSouthWestLeftFromBelow".toList, .minusSouthWestLeftFromBelow)]

/-- The mnemonics as the opcode table and R72 spell them. -/
def mnemonicNames : List (List Char × Mnemonic) :=
  [("EMPTY".toList, .empty), ("DECODE".toList, .decode), ("SET_LABEL".toList, .setLabel),
   ("SET_SDI".toList, .setSdi), ("SET_VALUE".toList, .setValue), ("SET_SSM".toList, .setSsm),
   ("SET_BIT".toList, .setBit), ("GET_BIT".toList, .getBit), ("GET_SSM".toList, .getSsm),
   ("BCD_NEW".toList, .bcdNew), ("GET_STATUS.D".toList, .getStatus .discrete),
   ("GET_STATUS.N".toList, .getStatus .bnr), ("GET_STATUS.B".toList, .getStatus .bcd),
   ("SET_STATUS.D".toList, .setStatus .discrete), ("SET_STATUS.N".toList, .setStatus .bnr),
   ("SET_STATUS.B".toList, .setStatus .bcd), ("SET".toList, .set), ("ENCODE".toList, .encode),
   ("CLR_BIT".toList, .clrBit)]

/-- An operand: a status member's name or a number. -/
def readOperand (cs : List Char) : Option AsmOperand :=
  match memberNames.lookup cs with
  | some m => some (.member m)
  | none => (readNumber cs).map .number

/-- Cut a list of characters at every comma. -/
def pieces : List Char → List (List Char)
  | [] => [[]]
  | c :: cs =>
    match pieces cs with
    | [] => []
    | p :: ps => if c = ',' then [] :: p :: ps else (c :: p) :: ps

/-- Drop the blanks at both ends. -/
def trimBlanks (cs : List Char) : List Char :=
  ((cs.dropWhile (· = ' ')).reverse.dropWhile (· = ' ')).reverse

/-- The family prefix of a line and what follows it. -/
def readPrefix : List Char → FamilyCode × List Char
  | 'D' :: '.' :: cs => (.discrete, cs)
  | 'N' :: '.' :: cs => (.bnr, cs)
  | 'B' :: '.' :: cs => (.bcd, cs)
  | cs => (.none, cs)

/-- The operands after a mnemonic; nothing but blanks means no operand. -/
def readOperands (cs : List Char) : Option (List AsmOperand) :=
  if cs.all (· = ' ') then some [] else (pieces cs).mapM fun p => readOperand (trimBlanks p)

/-- The command a line of text assembles to. -/
def assembleLine (line : String) : Option Instr :=
  let parts := (readPrefix line.toList).2.span (· ≠ ' ')
  (mnemonicNames.lookup parts.1).bind fun m =>
    (readOperands parts.2).bind fun ops => assemble (readPrefix line.toList).1 m ops

/-! ### The host's adapter to the named-variable store (R40; log 8) -/

/-- The command the adapter issues with a word it obtained from `read_raw`: DECODE of that word. -/
def adapterLoad (raw : Word) : Command := encode (.decode .none raw)

/-- The text the adapter passes to `write_raw`: `raw_o` in the open format `StoreTextFormat`. -/
def adapterText (s : State) : String := Config.storeTextFormat s.rawO

end Sys2Proof.Machine
end

