-- ==== Sys2Proof/Safety.lean ====
section
/-! DEFINITION. What counts as a safe run, in the terms the statements use: which commands lie outside the
contract (spec/30_encoding.md R69), when a word may be published as a parity-protected one
(spec/70_reset_and_hazards.md R162), and which inputs keep it so. -/

namespace Sys2Proof.Safety

open Sys2Proof.Machine

/-- R69's table written out over the numbers of the ports, apart from the decoder and the meanings: the cause
a presented command is refused with, or none. -/
def illegalCause (c : Command) : Option IllegalCause :=
  let op := c.cmd.toNat % 16
  let fam := c.cmd.toNat / 16
  let a := c.a.toNat
  if op ≥ 12 then some .reservedOpcode
  else if (op = 9 ∧ fam ≠ 3) ∨ ((op = 10 ∨ op = 11) ∧ fam = 0) then some .badFamily
  else if (op = 6 ∨ op = 7) ∧ (a = 0 ∨ a > 19) then some .badBitIndex
  else if op = 11 ∧ ((fam ≠ 3 ∧ a > 3) ∨ (fam = 3 ∧ a ≠ 1 ∧ a ≠ 2 ∧ a ≠ 4 ∧ a ≠ 5)) then some .badStatus
  else none

/-- The pins present nothing outside the contract: reset, idle, or a command R69 does not refuse. -/
def insideContract (pins : PortInput) : Prop :=
  pins.reset = false → pins.cmdValid = true → illegalCause pins.command = none

/-- The invariant of runs in which the host keeps the contract of R69. -/
def ContractRun (s : State) : Prop := ∀ pins ∈ s.inputs, insideContract pins

/-- The word held may be published as a parity-protected word (R162): its popcount is odd. -/
def publishable (s : State) : Prop := parityOK s.w = true

/-- The word held is the empty word or parity-valid: what holds from reset on while no word with bad parity is
loaded (R25, R165). -/
def emptyOrValid (w : Word) : Prop := w = 0#32 ∨ parityOK w = true

/-- The pins do not load a word with bad parity: if they present DECODE (whatever `fam`), its operand is the
zero word or parity-valid (R25, R163). -/
def loadsGoodWord (pins : PortInput) : Prop :=
  pins.reset = false → pins.cmdValid = true → pins.command.cmd.toNat % 16 = 1 → emptyOrValid pins.command.a

/-- The invariant of runs that load no bad word. -/
def GoodWordRun (s : State) : Prop := emptyOrValid s.w ∧ ∀ pins ∈ s.inputs, loadsGoodWord pins

/-- The pins neither reset the block nor present EMPTY, and present DECODE only with a parity-valid word. -/
def keepsParity (pins : PortInput) : Prop :=
  pins.reset = false ∧
    (pins.cmdValid = true →
      pins.command.cmd.toNat % 16 ≠ 0 ∧
        (pins.command.cmd.toNat % 16 = 1 → parityOK pins.command.a = true))

/-- The invariant of runs that start from a publishable word and present nothing that could spoil it (R25). -/
def PublishableRun (s : State) : Prop := publishable s ∧ ∀ pins ∈ s.inputs, keepsParity pins

/-- A run of `k` steps from `s` answers a next state and none of its steps was refused (R144: "A host that must
know whether any command was refused keeps that record itself"). -/
def acceptedRun : Nat → State → Prop
  | 0, _ => True
  | k + 1, s => ∃ t, step s = .next t ∧ t.response.ill = false ∧ acceptedRun k t

/-- Commands run one after the other, each on the state the one before left (R26, R49), stopping where one
answers no next state. -/
def runCommands : List Instr → State → Result
  | [], s => .next s
  | i :: is, s =>
    match exec i s with
    | .next t => runCommands is t
    | .fault r => .fault r
    | .refused r => .refused r

/-- Two commands may be issued in either order from a state: both orders leave the same next state (R110 (d)). -/
def commuteFrom (s : State) (i j : Instr) : Prop :=
  ∃ t, runCommands [i, j] s = .next t ∧ runCommands [j, i] s = .next t

end Sys2Proof.Safety
end

