-- ==== Sys2Proof/WellFormed.lean ====
section
/-! DEFINITION. Well-formed commands: those the source's types can spell (spec/30_encoding.md R68, R69 rows
BadBitIndex and BadStatus). Decoding looks at the command word alone (R73) and so yields ill-formed commands
too; those take IllegalCommand when they run. Every field operand is well formed, whatever its value (R67). -/

namespace Sys2Proof

/-- The operands of the command lie inside the contract: a bit index in 1..19, a status code that is a member
of the command's family (log entry 7). -/
def Instr.wellFormed (i : Instr) : Bool :=
  match i with
  | .empty _ => true
  | .decode _ _ => true
  | .setLabel _ _ => true
  | .setSdi _ _ => true
  | .setValue _ _ => true
  | .setSsm _ _ => true
  | .setBit _ index _ => (Machine.bitIndex index).isSome
  | .getBit _ index => (Machine.bitIndex index).isSome
  | .getSsm _ => true
  | .bcdNew _ _ _ _ => true
  | .getStatusD => true
  | .getStatusN => true
  | .getStatusB => true
  | .setStatusD status => (Machine.statusOperand .discrete status).isSome
  | .setStatusN status => (Machine.statusOperand .bnr status).isSome
  | .setStatusB status => (Machine.statusOperand .bcd status).isSome

end Sys2Proof
end

