-- ==== Sys2Proof/Certificates/Slice0/Obligations.lean ====
section
/-! DEFINITION. The statements for the provers. Results are said bit by bit or as numbers, apart from the
slices and shifts the meanings use. Unless it says otherwise, a statement says the spec's own words; where a
clause rests on a decision or a derivation the spec marks as its own, its docstring names it. -/

open Sys2Proof Sys2Proof.Machine Sys2Proof.Safety

/-! ### Encoding -/

/-- R73, the decode table and its counts (the numbering is the spec's decision D4): each row's words decode to
the row's command, whatever the operands; no word matches two rows; a word that matches none is refused with
ReservedOpcode if `op >= 12` and BadFamily otherwise; of the 64 words 36, 7 and 21 fall in the three classes. -/
def Obligations.CommandWordsDecodeByTable : Prop :=
  let base : List (Nat × Nat × String) :=
    [(0x0F, 0x00, "EMPTY"), (0x0F, 0x01, "DECODE"), (0x0F, 0x02, "SET_LABEL"), (0x0F, 0x03, "SET_SDI"),
     (0x0F, 0x04, "SET_VALUE"), (0x0F, 0x05, "SET_SSM"), (0x0F, 0x06, "SET_BIT"), (0x0F, 0x07, "GET_BIT"),
     (0x0F, 0x08, "GET_SSM")]
  let family : List (Nat × Nat × String) :=
    [(0x3F, 0x39, "BCD_NEW"), (0x3F, 0x1A, "GET_STATUS.D"), (0x3F, 0x2A, "GET_STATUS.N"),
     (0x3F, 0x3A, "GET_STATUS.B"), (0x3F, 0x1B, "SET_STATUS.D"), (0x3F, 0x2B, "SET_STATUS.N"),
     (0x3F, 0x3B, "SET_STATUS.B")]
  let hits := fun (n : Nat) (row : Nat × Nat × String) => n &&& row.1 == row.2.1
  (∀ c : Command, ∀ row ∈ base ++ family, hits c.cmd.toNat row = true →
      ∃ i, decodeCommand c = .ok i ∧ i.mnemonic = row.2.2) ∧
  (∀ c : Command, (∀ row ∈ base ++ family, hits c.cmd.toNat row = false) →
      decodeCommand c = .error (if c.cmd.toNat % 16 ≥ 12 then .reservedOpcode else .badFamily)) ∧
  (∀ n < 64, (base ++ family).countP (hits n) ≤ 1) ∧
  ((List.range 64).countP fun n => base.any (hits n)) = 36 ∧
  ((List.range 64).countP fun n => family.any (hits n)) = 7 ∧
  ((List.range 64).countP fun n => !(base ++ family).any (hits n)) = 21

/-- Command words written out bit by bit from R63 to R65 and R73 decode to the commands they stand for. -/
def Obligations.SampleWordsDecode : Prop :=
  decodeCommand ⟨0b000000#6, 1, 2, 3, 4⟩ = .ok (.empty .none) ∧
  decodeCommand ⟨0b110001#6, 0x12345678#32, 0, 0, 0⟩ = .ok (.decode .bcd 0x12345678#32) ∧
  decodeCommand ⟨0b010010#6, 0x1B1#32, 0, 0, 0⟩ = .ok (.setLabel .discrete 0x1B1#32) ∧
  decodeCommand ⟨0b100110#6, 2, 1, 9, 9⟩ = .ok (.setBit .bnr 2 1) ∧
  decodeCommand ⟨0b111001#6, 13, 1, 0x12345#32, 3⟩ = .ok (.bcdNew 13 1 0x12345#32 3) ∧
  decodeCommand ⟨0b101010#6, 0, 0, 0, 0⟩ = .ok .getStatusN ∧
  decodeCommand ⟨0b111011#6, 5, 0, 0, 0⟩ = .ok (.setStatusB 5) ∧
  decodeCommand ⟨0b001100#6, 0, 0, 0, 0⟩ = .error .reservedOpcode ∧
  decodeCommand ⟨0b011001#6, 1, 2, 3, 0⟩ = .error .badFamily

/-- Decoding and encoding agree (R63, R64, R73): decoding the command that carries an instruction gives the
instruction back, with every operand at every value; and what decodes to an instruction has that instruction's
command word and, on each port R64 says the command uses, its operand. That unused ports carry 0 in `encode`
is the model's choice (log 7) and is not stated. -/
def Obligations.DecodeEncodeRoundTrip : Prop :=
  (∀ i : Instr, decodeCommand (encode i) = .ok i) ∧
  (∀ (c : Command) (i : Instr), decodeCommand c = .ok i →
    (encode i).cmd = c.cmd ∧
    (c.cmd.toNat % 16 ∈ [1, 2, 3, 4, 5, 6, 7, 9, 11] → (encode i).a = c.a) ∧
    (c.cmd.toNat % 16 ∈ [6, 9] → (encode i).b = c.b) ∧
    (c.cmd.toNat % 16 = 9 → (encode i).c = c.c ∧ (encode i).d = c.d))

/-- What R64 and R68 call ignored has no effect on a step: the `fam` bits of a family-blind or reserved
command, the operand ports a command does not use, and `b[31:1]` of SET_BIT. -/
def Obligations.IgnoredPinsHaveNoEffect : Prop :=
  ∀ (s : State) (rest : List PortInput) (c e : Command),
    c.cmd.toNat % 16 = e.cmd.toNat % 16 →
    (c.cmd = e.cmd ∨ c.cmd.toNat % 16 < 9 ∨ 12 ≤ c.cmd.toNat % 16) →
    (c.cmd.toNat % 16 ∈ [1, 2, 3, 4, 5, 6, 7, 9, 11] → c.a = e.a) →
    (c.cmd.toNat % 16 = 6 → c.b.getLsbD 0 = e.b.getLsbD 0) →
    (c.cmd.toNat % 16 = 9 → c.b = e.b ∧ c.c = e.c ∧ c.d = e.d) →
    step { s with inputs := present c :: rest } = step { s with inputs := present e :: rest }

/-! ### The step -/

/-- A presented command that decodes is executed in that step on the state the step found, its input taken
(R168); so `withFetchWord` makes the very next step run the table word's instruction. That what the host
presents is a list of the state is the model's choice (log 1, log 4). -/
def Obligations.StepRunsDecodedCommand : Prop :=
  (∀ (s : State) (pins : PortInput) (rest : List PortInput) (i : Instr),
    s.inputs = pins :: rest → pins.reset = false → pins.cmdValid = true →
    decodeCommand pins.command = .ok i → step s = exec i { s with inputs := rest }) ∧
  (∀ (s : State) (nbits w : Nat) (i : Instr),
    decodeTableWord nbits w = some i → step (s.withFetchWord nbits w) = exec i s)

/-- R160 (the spec's decision D12): the reset event clears `W` and nothing else, whatever command is presented
with it; the response signals are 0; EMPTY in the same place leaves the same state. -/
def Obligations.ResetEventClearsWord : Prop :=
  ∀ (s : State) (pins : PortInput) (rest : List PortInput) (f : FamilyCode),
    s.inputs = pins :: rest → pins.reset = true →
    ∃ t, step s = .next t ∧ t.w = 0#32 ∧ t.inputs = rest ∧
      t.response.ill = false ∧ t.response.illCause = 0#3 ∧ t.response.resValid = false ∧
      t.response.res = 0#32 ∧ exec (.empty f) { s with inputs := rest } = .next t

/-- An idle step leaves `W` as it was and the four response signals 0 (R62). The second clause, that a port
for which the host has nothing left is idle, is the model's choice (log 2). -/
def Obligations.IdleStepLeavesWord : Prop :=
  (∀ (s : State) (pins : PortInput) (rest : List PortInput),
    s.inputs = pins :: rest → pins.reset = false → pins.cmdValid = false →
    ∃ t, step s = .next t ∧ t.w = s.w ∧ t.inputs = rest ∧ t.response.ill = false ∧
      t.response.illCause = 0#3 ∧ t.response.resValid = false ∧ t.response.res = 0#32) ∧
  (∀ s : State, s.inputs = [] →
    ∃ t, step s = .next t ∧ t.w = s.w ∧ t.inputs = [] ∧ t.response.ill = false ∧
      t.response.illCause = 0#3 ∧ t.response.resValid = false ∧ t.response.res = 0#32)

/-- R161 (the spec's decision D12), the value after reset of every item of its table. -/
def Obligations.ResetValues : Prop :=
  let s := State.reset
  s.w = 0#32 ∧ labelOf s.w = 0#8 ∧ sdiOf s.w = 0#2 ∧ valueOf s.w = 0#19 ∧ ssmOf s.w = 0#2 ∧
  parityOf s.w = 0#1 ∧
  statusOf .discrete (ssmOf s.w) = .normalOperation ∧ statusOf .bnr (ssmOf s.w) = .failureWarning ∧
  statusOf .bcd (ssmOf s.w) = .plusNorthEastRightToAbove ∧
  s.rawO = 0#32 ∧ s.labelO = 0#8 ∧ s.sdiO = 0#2 ∧ s.valueO = 0#19 ∧ s.ssmO = 0#2 ∧ s.parityO = 0#1 ∧
  s.pcalcO = 1#1 ∧ parityOK s.w = false ∧
  s.response.ill = false ∧ s.response.illCause = 0#3 ∧ s.response.resValid = false ∧ s.response.res = 0#32

/-! ### Base Word commands -/

/-- R101: EMPTY clears `W` without using the parity calculator, and the first accepted mutator or BCD_NEW
afterwards sets the parity bit. -/
def Obligations.EmptyClearsWord : Prop :=
  (∀ c : Command, c.cmd &&& 0x0F#6 = 0x00#6 → ∃ f, decodeCommand c = .ok (.empty f)) ∧
  (∀ (f g : FamilyCode) (s : State), ∃ t, exec (.empty f) s = .next t ∧
    t.w = 0#32 ∧ t.response = .silent ∧ t.inputs = s.inputs ∧
    parityOK t.w = false ∧ t.parityO = 0#1 ∧ t.pcalcO = 1#1 ∧
    (∃ u, exec (.setLabel g 0) t = .next u ∧ u.w = 0x80000000#32) ∧
    ∀ i : Instr, i.mnemonic ∈ ["SET_LABEL", "SET_SDI", "SET_VALUE", "SET_SSM", "SET_BIT", "SET_STATUS.D",
        "SET_STATUS.N", "SET_STATUS.B", "BCD_NEW"] →
      ∃ u, exec i t = .next u ∧ (u.response.ill = false → parityOK u.w = true))

/-- R102: DECODE holds the raw word verbatim, parity bit included, and the fields read as the layout's
quotients and remainders of it. -/
def Obligations.DecodeHoldsRawVerbatim : Prop :=
  (∀ c : Command, c.cmd &&& 0x0F#6 = 0x01#6 → ∃ f, decodeCommand c = .ok (.decode f c.a)) ∧
  (∀ (f : FamilyCode) (raw : Word) (s : State), ∃ t, exec (.decode f raw) s = .next t ∧
    t.rawO = raw ∧ t.response = .silent ∧ t.inputs = s.inputs ∧
    t.labelO.toNat = raw.toNat % 2 ^ 8 ∧ t.sdiO.toNat = raw.toNat / 2 ^ 8 % 2 ^ 2 ∧
    t.valueO.toNat = raw.toNat / 2 ^ 10 % 2 ^ 19 ∧ t.ssmO.toNat = raw.toNat / 2 ^ 29 % 2 ^ 2 ∧
    t.parityO.toNat = raw.toNat / 2 ^ 31 ∧
    (parityOK t.w = true ↔ popcount raw % 2 = 1))

/-- R103: SET_LABEL replaces bits 7:0 by the operand's low eight bits, keeps bits 30:8 and recomputes bit 31,
from any word, parity-valid or not. -/
def Obligations.SetLabelWritesLabelAndParity : Prop :=
  (∀ c : Command, c.cmd &&& 0x0F#6 = 0x02#6 → ∃ f, decodeCommand c = .ok (.setLabel f c.a)) ∧
  (∀ (f : FamilyCode) (l : Word) (s : State), ∃ t, exec (.setLabel f l) s = .next t ∧
    (∀ i < 31, t.w.getLsbD i = if i < 8 then l.getLsbD i else s.w.getLsbD i) ∧
    popcount t.w % 2 = 1 ∧ t.response = .silent ∧ t.inputs = s.inputs)

/-- R104: SET_SDI replaces bits 9:8 by the operand's low two bits, keeps the other fields and recomputes
bit 31. -/
def Obligations.SetSdiWritesSdiAndParity : Prop :=
  (∀ c : Command, c.cmd &&& 0x0F#6 = 0x03#6 → ∃ f, decodeCommand c = .ok (.setSdi f c.a)) ∧
  (∀ (f : FamilyCode) (x : Word) (s : State), ∃ t, exec (.setSdi f x) s = .next t ∧
    (∀ i < 31, t.w.getLsbD i = if 8 ≤ i ∧ i < 10 then x.getLsbD (i - 8) else s.w.getLsbD i) ∧
    popcount t.w % 2 = 1 ∧ t.response = .silent ∧ t.inputs = s.inputs)

/-- R105: SET_VALUE replaces bits 28:10 by the operand's low nineteen bits, keeps the other fields and
recomputes bit 31. -/
def Obligations.SetValueWritesValueAndParity : Prop :=
  (∀ c : Command, c.cmd &&& 0x0F#6 = 0x04#6 → ∃ f, decodeCommand c = .ok (.setValue f c.a)) ∧
  (∀ (f : FamilyCode) (v : Word) (s : State), ∃ t, exec (.setValue f v) s = .next t ∧
    (∀ i < 31, t.w.getLsbD i = if 10 ≤ i ∧ i < 29 then v.getLsbD (i - 10) else s.w.getLsbD i) ∧
    popcount t.w % 2 = 1 ∧ t.response = .silent ∧ t.inputs = s.inputs)

/-- R106: SET_SSM replaces bits 30:29 by the operand's low two bits, keeps the other fields and recomputes
bit 31. -/
def Obligations.SetSsmWritesSsmAndParity : Prop :=
  (∀ c : Command, c.cmd &&& 0x0F#6 = 0x05#6 → ∃ f, decodeCommand c = .ok (.setSsm f c.a)) ∧
  (∀ (f : FamilyCode) (x : Word) (s : State), ∃ t, exec (.setSsm f x) s = .next t ∧
    (∀ i < 31, t.w.getLsbD i = if 29 ≤ i then x.getLsbD (i - 29) else s.w.getLsbD i) ∧
    popcount t.w % 2 = 1 ∧ t.response = .silent ∧ t.inputs = s.inputs)

/-- R107: SET_BIT with an index in 1..19 writes `b[0]` to bit `9 + a` of `W`, keeps the other bits below 31 and
recomputes bit 31; any other index, compared whole, is refused with the state as it was (the refusal is the
spec's decision D9). -/
def Obligations.SetBitWritesOneValueBit : Prop :=
  (∀ c : Command, c.cmd &&& 0x0F#6 = 0x06#6 → ∃ f, decodeCommand c = .ok (.setBit f c.a c.b)) ∧
  (∀ (f : FamilyCode) (index on : Word) (s : State), 1 ≤ index.toNat → index.toNat ≤ 19 →
    ∃ t, exec (.setBit f index on) s = .next t ∧
      (∀ i < 31, t.w.getLsbD i = if i = 9 + index.toNat then on.getLsbD 0 else s.w.getLsbD i) ∧
      popcount t.w % 2 = 1 ∧ t.response = .silent ∧ t.inputs = s.inputs) ∧
  (∀ (f : FamilyCode) (index on : Word) (s : State), index.toNat = 0 ∨ 20 ≤ index.toNat →
    exec (.setBit f index on) s = .next { s with response := .illegal .badBitIndex })

/-- R108: GET_BIT with an index in 1..19 answers bit `9 + a` of `W` and changes nothing; any other index is
refused with the state as it was (the refusal is the spec's decision D9). -/
def Obligations.GetBitAnswersOneValueBit : Prop :=
  (∀ c : Command, c.cmd &&& 0x0F#6 = 0x07#6 → ∃ f, decodeCommand c = .ok (.getBit f c.a)) ∧
  (∀ (f : FamilyCode) (index : Word) (s : State), 1 ≤ index.toNat → index.toNat ≤ 19 →
    exec (.getBit f index) s =
      .next { s with response := .answer (if s.w.getLsbD (9 + index.toNat) then 1#32 else 0#32) }) ∧
  (∀ (f : FamilyCode) (index : Word) (s : State), index.toNat = 0 ∨ 20 ≤ index.toNat →
    exec (.getBit f index) s = .next { s with response := .illegal .badBitIndex })

/-- R109: GET_SSM answers the stored 2-bit code, zero-extended, and changes nothing. -/
def Obligations.GetSsmAnswersStoredCode : Prop :=
  (∀ c : Command, c.cmd &&& 0x0F#6 = 0x08#6 → ∃ f, decodeCommand c = .ok (.getSsm f)) ∧
  (∀ (f : FamilyCode) (s : State), ∃ r : Word,
    exec (.getSsm f) s = .next { s with response := .answer r } ∧
    r.toNat = s.w.toNat / 2 ^ 29 % 2 ^ 2 ∧ r = s.ssmO.setWidth 32)

/-! ### Word-family commands -/

/-- R121: BCD_NEW builds the whole word from its four operands, each cut to its field's width, with the parity
bit computed over them; nothing of the old word survives. With `op = 9` and another family the command is
refused (the spec's decision D4). -/
def Obligations.BcdNewBuildsWord : Prop :=
  (∀ c : Command, c.cmd = 0x39#6 → decodeCommand c = .ok (.bcdNew c.a c.b c.c c.d)) ∧
  (∀ c : Command, c.cmd.toNat % 16 = 9 → c.cmd.toNat / 16 ≠ 3 → decodeCommand c = .error .badFamily) ∧
  (∀ (l x v m : Word) (s : State), ∃ t, exec (.bcdNew l x v m) s = .next t ∧
    (∀ i < 31, t.w.getLsbD i =
      if i < 8 then l.getLsbD i else if i < 10 then x.getLsbD (i - 8)
      else if i < 29 then v.getLsbD (i - 10) else m.getLsbD (i - 29)) ∧
    popcount t.w % 2 = 1 ∧ t.response = .silent ∧ t.inputs = s.inputs)

/-- R122, R123, R124: each GET_STATUS answers its family's status code for bits 30:29 and changes nothing. -/
def Obligations.GetStatusAnswersFamilyCode : Prop :=
  (∀ c : Command, c.cmd = 0x1A#6 → decodeCommand c = .ok .getStatusD) ∧
  (∀ c : Command, c.cmd = 0x2A#6 → decodeCommand c = .ok .getStatusN) ∧
  (∀ c : Command, c.cmd = 0x3A#6 → decodeCommand c = .ok .getStatusB) ∧
  (∀ s : State,
    let r : Word := if s.w.getLsbD 30 then (if s.w.getLsbD 29 then 3 else 2)
      else (if s.w.getLsbD 29 then 1 else 0)
    exec .getStatusD s = .next { s with response := .answer r }) ∧
  (∀ s : State,
    let r : Word := if s.w.getLsbD 30 then (if s.w.getLsbD 29 then 0 else 2)
      else (if s.w.getLsbD 29 then 1 else 3)
    exec .getStatusN s = .next { s with response := .answer r }) ∧
  (∀ s : State,
    let r : Word := if s.w.getLsbD 30 then (if s.w.getLsbD 29 then 5 else 2)
      else (if s.w.getLsbD 29 then 1 else 4)
    exec .getStatusB s = .next { s with response := .answer r })

/-- R125: SET_STATUS.D writes the Discrete code of the member (which equals its status code) to bits 30:29,
keeps the other fields and recomputes bit 31; an operand above 3 is refused (the spec's decision D22). -/
def Obligations.SetStatusDWritesDiscreteCode : Prop :=
  (∀ c : Command, c.cmd = 0x1B#6 → decodeCommand c = .ok (.setStatusD c.a)) ∧
  (∀ (a : Word) (s : State), a.toNat ≤ 3 → ∃ t, exec (.setStatusD a) s = .next t ∧
    (∀ i < 31, t.w.getLsbD i =
      if i = 29 then a.getLsbD 0 else if i = 30 then a.getLsbD 1 else s.w.getLsbD i) ∧
    popcount t.w % 2 = 1 ∧ t.response = .silent ∧ t.inputs = s.inputs) ∧
  (∀ (a : Word) (s : State), 4 ≤ a.toNat →
    exec (.setStatusD a) s = .next { s with response := .illegal .badStatus })

/-- R126: SET_STATUS.N writes the BNR code of the member (NormalOperation 0 as `0b11`, NoComputedData 1 as
`0b01`, FunctionalTest 2 as `0b10`, FailureWarning 3 as `0b00`), keeps the other fields and recomputes bit 31;
an operand above 3 is refused (the spec's decision D22). -/
def Obligations.SetStatusNWritesBnrCode : Prop :=
  (∀ c : Command, c.cmd = 0x2B#6 → decodeCommand c = .ok (.setStatusN c.a)) ∧
  (∀ (a : Word) (s : State), a.toNat ≤ 3 → ∃ t, exec (.setStatusN a) s = .next t ∧
    (∀ i < 31, t.w.getLsbD i =
      if i = 29 then decide (a.toNat = 0 ∨ a.toNat = 1)
      else if i = 30 then decide (a.toNat = 0 ∨ a.toNat = 2) else s.w.getLsbD i) ∧
    popcount t.w % 2 = 1 ∧ t.response = .silent ∧ t.inputs = s.inputs) ∧
  (∀ (a : Word) (s : State), 4 ≤ a.toNat →
    exec (.setStatusN a) s = .next { s with response := .illegal .badStatus })

/-- R127: SET_STATUS.B writes the BCD code of the member (PlusNorthEastRightToAbove 4 as `0b00`, NoComputedData
1 as `0b01`, FunctionalTest 2 as `0b10`, MinusSouthWestLeftFromBelow 5 as `0b11`), keeps the other fields and
recomputes bit 31; every other operand is refused (the spec's decision D22). -/
def Obligations.SetStatusBWritesBcdCode : Prop :=
  (∀ c : Command, c.cmd = 0x3B#6 → decodeCommand c = .ok (.setStatusB c.a)) ∧
  (∀ (a : Word) (s : State), a.toNat ∈ [1, 2, 4, 5] → ∃ t, exec (.setStatusB a) s = .next t ∧
    (∀ i < 31, t.w.getLsbD i =
      if i = 29 then decide (a.toNat = 1 ∨ a.toNat = 5)
      else if i = 30 then decide (a.toNat = 2 ∨ a.toNat = 5) else s.w.getLsbD i) ∧
    popcount t.w % 2 = 1 ∧ t.response = .silent ∧ t.inputs = s.inputs) ∧
  (∀ (a : Word) (s : State), a.toNat ∉ [1, 2, 4, 5] →
    exec (.setStatusB a) s = .next { s with response := .illegal .badStatus })

/-! ### IllegalCommand -/

/-- R141, R69 (the spec's decisions D8, D9, D22): a presented command is refused exactly where R69's table says
so, with that cause; its whole effect is the response `ill = 1`, the cause's code, `res_valid = 0`, `res = 0`;
every other command is accepted with `ill = 0` and cause 0, as idle is. -/
def Obligations.IllegalCommandExactlyByTable : Prop :=
  (∀ (s : State) (pins : PortInput) (rest : List PortInput),
    s.inputs = pins :: rest → pins.reset = false → pins.cmdValid = true →
    (∀ e, illegalCause pins.command = some e →
      step s = .next { s with response := .illegal e, inputs := rest }) ∧
    (illegalCause pins.command = none →
      ∃ t, step s = .next t ∧ t.response.ill = false ∧ t.response.illCause = 0#3)) ∧
  (∀ (s : State) (pins : PortInput) (rest : List PortInput),
    s.inputs = pins :: rest → pins.reset = false → pins.cmdValid = false →
    ∃ t, step s = .next t ∧ t.response.ill = false ∧ t.response.illCause = 0#3) ∧
  (∀ e : IllegalCause, (Response.illegal e).ill = true ∧ (Response.illegal e).resValid = false ∧
    (Response.illegal e).res = 0#32) ∧
  (Response.illegal .reservedOpcode).illCause = 1#3 ∧ (Response.illegal .badFamily).illCause = 2#3 ∧
  (Response.illegal .badBitIndex).illCause = 3#3 ∧ (Response.illegal .badStatus).illCause = 4#3

/-- Every decoded command completes: a well-formed one is accepted, an ill-formed one takes IllegalCommand with
`W` as it was (R141; well-formed is the model's name for R69's operand rows, log 7). -/
def Obligations.WellFormedExactlyAccepted : Prop :=
  ∀ (i : Instr) (s : State), ∃ t, exec i s = .next t ∧ t.inputs = s.inputs ∧
    (t.response.ill = true ↔ i.wellFormed = false) ∧
    (i.wellFormed = false → t = { s with response := t.response })

/-- A refused command leaves no trace in later steps (R144): the step after it is the step the block would have
taken had the refused command never been presented. -/
def Obligations.RefusalLeavesNoTrace : Prop :=
  ∀ (s : State) (pins : PortInput) (rest : List PortInput) (e : IllegalCause),
    s.inputs = pins :: rest → pins.reset = false → pins.cmdValid = true →
    illegalCause pins.command = some e →
    ∃ t, step s = .next t ∧ step t = step { s with inputs := rest }

/-! ### Whole-machine rules -/

/-- R23 (derived by the spec from the commands' rules): which commands keep which field. A command outside the
list that writes a field keeps it; the GET commands and every refused command keep the whole word. -/
def Obligations.CommandsKeepOtherFields : Prop :=
  ∀ (i : Instr) (s : State), ∃ t, exec i s = .next t ∧ t.inputs = s.inputs ∧
    (i.mnemonic ∉ ["EMPTY", "DECODE", "SET_LABEL", "BCD_NEW"] → labelOf t.w = labelOf s.w) ∧
    (i.mnemonic ∉ ["EMPTY", "DECODE", "SET_SDI", "BCD_NEW"] → sdiOf t.w = sdiOf s.w) ∧
    (i.mnemonic ∉ ["EMPTY", "DECODE", "SET_VALUE", "SET_BIT", "BCD_NEW"] → valueOf t.w = valueOf s.w) ∧
    (i.mnemonic ∉ ["EMPTY", "DECODE", "SET_SSM", "SET_STATUS.D", "SET_STATUS.N", "SET_STATUS.B", "BCD_NEW"] →
      ssmOf t.w = ssmOf s.w) ∧
    (i.mnemonic ∈ ["GET_BIT", "GET_SSM", "GET_STATUS.D", "GET_STATUS.N", "GET_STATUS.B"] → t.w = s.w) ∧
    (t.response.ill = true → t.w = s.w)

/-- No command reads the old parity bit (R24): from two states that differ in bit 31 alone a command gives the
same response and the same fields, and either the same word or each its own word unchanged. -/
def Obligations.ParityBitNeverRead : Prop :=
  ∀ (i : Instr) (s : State), ∃ t u, exec i s = .next t ∧
    exec i { s with w := s.w ^^^ 0x80000000#32 } = .next u ∧
    t.response = u.response ∧ t.inputs = u.inputs ∧
    (∀ j < 31, t.w.getLsbD j = u.w.getLsbD j) ∧
    (t.w = u.w ∨ (t.w = s.w ∧ u.w = s.w ^^^ 0x80000000#32))

/-- R25: where odd parity holds. After every accepted mutator and BCD_NEW, whatever `W` held; not after EMPTY
or reset; after DECODE if and only if the operand had odd popcount; GET and refused commands leave it. -/
def Obligations.ParityAfterEveryCommand : Prop :=
  (∀ r : Word, parityOK r = true ↔ popcount r % 2 = 1) ∧
  parityOK State.reset.w = false ∧
  ∀ (i : Instr) (s : State), ∃ t, exec i s = .next t ∧
    (t.response.ill = false → i.mnemonic ∈ ["SET_LABEL", "SET_SDI", "SET_VALUE", "SET_SSM", "SET_BIT",
      "SET_STATUS.D", "SET_STATUS.N", "SET_STATUS.B", "BCD_NEW"] → parityOK t.w = true) ∧
    (i.mnemonic = "EMPTY" → parityOK t.w = false) ∧
    (∀ f raw, i = .decode f raw → parityOK t.w = parityOK raw) ∧
    (i.mnemonic ∈ ["GET_BIT", "GET_SSM", "GET_STATUS.D", "GET_STATUS.N", "GET_STATUS.B"] →
      parityOK t.w = parityOK s.w) ∧
    (t.response.ill = true → parityOK t.w = parityOK s.w)

/-- R31 (the spec's decision D3): the response of a step is not stored where a later step could read it; a step
depends on `W` and on what the host presents, and on nothing else. -/
def Obligations.StepReadsOnlyWordAndInputs : Prop :=
  ∀ s t : State, s.w = t.w → s.inputs = t.inputs → step s = step t

/-- Commands take effect one at a time in the order presented (R49): what a run does to the state does not
depend on anything the host presents after it. -/
def Obligations.RunIgnoresLaterInputs : Prop :=
  ∀ (xs ys : List PortInput) (s : State), ∃ t,
    Host.Core.run Sys2Proof.core xs.length { s with inputs := xs } = .next t ∧ t.inputs = [] ∧
    Host.Core.run Sys2Proof.core xs.length { s with inputs := xs ++ ys } = .next { t with inputs := ys }

/-- The block never halts and is never busy (R140, R149, R168): a run of any length from any state answers a
next state and has taken one input a step. That the steps past the end of the inputs are idle is the model's
choice (log 2). -/
def Obligations.EveryRunCompletes : Prop :=
  ∀ (k : Nat) (s : State), ∃ t, Host.Core.run Sys2Proof.core k s = .next t ∧ t.inputs = s.inputs.drop k

/-- A host that presents only what lies inside the contract is never refused (R69, R140, R141). That the steps
past the end of the inputs are idle is the model's choice (log 2). -/
def Obligations.ContractKeptNeverRefused : Prop :=
  ∀ (k : Nat) (s : State),
    (∀ pins ∈ s.inputs, pins.reset = false → pins.cmdValid = true → illegalCause pins.command = none) →
    acceptedRun k s

/-- The step behind it, as an invariant of every state: where the host is to present nothing outside the
contract (R69), the step answers a next state that is no refusal and of which the same holds. That a port with
nothing left is idle, and so inside the contract, is the model's choice (log 2). -/
def Obligations.StepKeepsContractRun : Prop :=
  ∀ s : State, ContractRun s → ∃ t, step s = .next t ∧ ContractRun t ∧ t.response.ill = false

/-- Where that invariant comes from: it holds after reset, and of every state whose host is to present commands
that encode well-formed instructions; and a command that decodes, whatever its unused ports carry, lies inside
the contract exactly if its instruction is well formed. The clause about reset rests on the empty list of inputs
there, the model's choice (log 1), and no rule of the spec; the second clause holds whatever well-formed commands
are to come, from the reset state too. Well formed, and the encoder's 0 on unused ports, are the model's
(log 7). -/
def Obligations.WellFormedCommandsKeepContract : Prop :=
  ContractRun State.reset ∧
  (∀ (s : State) (is : List Instr), (∀ i ∈ is, i.wellFormed = true) →
    ContractRun { s with inputs := is.map fun i => present (encode i) }) ∧
  (∀ (c : Command) (i : Instr), decodeCommand c = .ok i →
    (insideContract (present c) ↔ i.wellFormed = true))

/-- The invariant of runs that load no word with bad parity (R25, R162, R165): the word held is the empty word
or parity-valid. Every step keeps it, from every state that has it. -/
def Obligations.StepKeepsGoodWordRun : Prop :=
  ∀ s t : State, GoodWordRun s → step s = .next t → GoodWordRun t

/-- The invariant holds after reset, and when the host is to present anything that loads no bad word. That
nothing is to come after reset itself, which the first clause uses for its half about the inputs, is the model's
choice (log 1); the second clause holds for any such inputs. -/
def Obligations.ResetIsGoodWordRun : Prop :=
  GoodWordRun State.reset ∧
  ∀ xs : List PortInput, (∀ pins ∈ xs, loadsGoodWord pins) → GoodWordRun { State.reset with inputs := xs }

/-- Once the word may be published it stays so (R25, R162) while the host neither resets, nor presents EMPTY,
nor loads a word with bad parity: every step keeps that invariant. -/
def Obligations.StepKeepsPublishableRun : Prop :=
  ∀ s t : State, PublishableRun s → step s = .next t → PublishableRun t

/-! ### The combinational core -/

/-- R60 and R81: the five fields read the same through the layout table, by shifting down and masking. -/
def Obligations.FieldsFollowLayoutTable : Prop :=
  layout = [⟨0, 8, 0xFF⟩, ⟨8, 2, 0x3⟩, ⟨10, 19, 0x7FFFF⟩, ⟨29, 2, 0x3⟩, ⟨31, 1, 0x1⟩] ∧
  ∀ r : Word, layout.map (fun row => row.read r) =
    [(demux r).label.toNat, (demux r).sdi.toNat, (demux r).value.toNat, (demux r).ssm.toNat,
     (demux r).parity.toNat]

/-- R82 and R86: the composite and the recombined word as integers; the composite is below 2^31. -/
def Obligations.RecombinedWordAsInteger : Prop :=
  ∀ (l : Label) (x : Sdi) (v : Value) (m : Ssm) (p : Bit),
    (composite l x v m).getLsbD 31 = false ∧
    (composite l x v m).toNat = l.toNat + 256 * x.toNat + 1024 * v.toNat + 536870912 * m.toNat ∧
    (composite l x v m).toNat < 2 ^ 31 ∧
    (recombine l x v m p).toNat =
      l.toNat + 256 * x.toNat + 1024 * v.toNat + 536870912 * m.toNat + 2147483648 * p.toNat ∧
    (p = 1#1 → 2 ^ 31 ≤ (recombine l x v m p).toNat)

/-- R22: `W` decomposes exactly into its five fields, in every state. -/
def Obligations.WordDecomposesIntoFields : Prop :=
  ∀ s : State, s.w = s.labelO.setWidth 32 ||| (s.sdiO.setWidth 32 <<< 8) ||| (s.valueO.setWidth 32 <<< 10) |||
    (s.ssmO.setWidth 32 <<< 29) ||| (s.parityO.setWidth 32 <<< 31)

/-- The round-trip laws of R87 (derived by the spec from R80, R81, R82, R86). -/
def Obligations.DemuxRecombineRoundTrip : Prop :=
  (∀ r : Word, (demux r).recombine = r) ∧
  (∀ t : Fields, demux t.recombine = t) ∧
  (∀ (l x v m : Word) (p : Bit),
    (demux (recombine (maskLabel l) (maskSdi x) (maskValue v) (maskSsm m) p)).label.toNat = l.toNat &&& 0xFF ∧
    (demux (recombine (maskLabel l) (maskSdi x) (maskValue v) (maskSsm m) p)).sdi.toNat = x.toNat &&& 0x3 ∧
    (demux (recombine (maskLabel l) (maskSdi x) (maskValue v) (maskSsm m) p)).value.toNat
      = v.toNat &&& 0x7FFFF ∧
    (demux (recombine (maskLabel l) (maskSdi x) (maskValue v) (maskSsm m) p)).ssm.toNat = m.toNat &&& 0x3)

/-- R84: the sixteen entries of the parity table, and that an entry is 1 exactly when its index has an odd
number of set bits. -/
def Obligations.ParityTableEntries : Prop :=
  ((List.range 16).map fun n => (parityEntry (BitVec.ofNat 4 n)).toNat) =
    [0, 1, 1, 0, 1, 0, 0, 1, 1, 0, 0, 1, 0, 1, 1, 0] ∧
  ∀ n : BitVec 4, (parityEntry n).toNat = popcount n % 2

/-- The fold keeps popcount's parity (R83, derived by the spec from XOR's laws). -/
def Obligations.FoldKeepsPopcountParity : Prop :=
  ∀ c : Word, popcount (fold c) % 2 = popcount c % 2

/-- The closed form of the parity bit (R85, derived by the spec from R83 and R84), against the step form the
model computes. -/
def Obligations.ParityBitClosedForm : Prop :=
  ∀ (l : Label) (x : Sdi) (v : Value) (m : Ssm),
    (parityBit l x v m).toNat = 1 - (popcount l + popcount x + popcount v + popcount m) % 2 ∧
    (parityBit l x v m = 1#1 ↔ popcount (composite l x v m) % 2 = 0)

/-- The parity law (R88, derived by the spec from R85 and R86). -/
def Obligations.RecombinedWordHasOddParity : Prop :=
  ∀ (l : Label) (x : Sdi) (v : Value) (m : Ssm),
    popcount (recombine l x v m (parityBit l x v m)) % 2 = 1

/-- The caller's check (R95, derived by the spec; R30's outputs): a word's popcount is odd exactly when its
parity bit is the computed one, which a host sees as `pcalc_o = parity_o`. -/
def Obligations.ParityCheckAtOutputs : Prop :=
  ∀ s : State, popcount s.rawO % 2 = 1 ↔ s.pcalcO = s.parityO

/-- R92 and R93 (R93 derived by the spec): the status tables in numbers, inverse to each other, four members a
family. -/
def Obligations.StatusTablesInverse : Prop :=
  ([0#2, 1#2, 2#2, 3#2].map fun x => (statusNumber (statusOf .discrete x)).toNat) = [0, 1, 2, 3] ∧
  ([0#2, 1#2, 2#2, 3#2].map fun x => (statusNumber (statusOf .bnr x)).toNat) = [3, 1, 2, 0] ∧
  ([0#2, 1#2, 2#2, 3#2].map fun x => (statusNumber (statusOf .bcd x)).toNat) = [4, 1, 2, 5] ∧
  (∀ (fam : Family) (x : Ssm), statusCode fam (statusOf fam x) = some x) ∧
  (∀ (fam : Family) (q : Status) (x : Ssm), statusCode fam q = some x → statusOf fam x = q)

/-! ### Laws that follow (spec/41_base_word.md section 10, spec/42_word_families.md) -/

/-- Issuing any command twice in a row equals issuing it once (R47, R110 (c), derived by the spec), refused
commands and reads included. -/
def Obligations.EveryCommandIdempotent : Prop :=
  ∀ (i : Instr) (s : State), ∃ t, exec i s = .next t ∧ exec i t = .next t

/-- Setters of different fields commute, and so do SET_BIT commands on different indices (R110 (d), derived by
the spec). The setters are the four field setters, SET_BIT (of the value field, R12) with an index in 1..19 and
the three SET_STATUS (of the ssm field) with a member of their family. -/
def Obligations.SettersCommute : Prop :=
  (∀ (f₁ f₂ f₃ f₄ : FamilyCode) (l x v m : Word) (s : State),
    [Instr.setLabel f₁ l, .setSdi f₂ x, .setValue f₃ v, .setSsm f₄ m].Pairwise (commuteFrom s)) ∧
  (∀ (f g : FamilyCode) (a b p q : Word) (s : State), a ≠ b → 1 ≤ a.toNat → a.toNat ≤ 19 →
    1 ≤ b.toNat → b.toNat ≤ 19 → commuteFrom s (.setBit f a p) (.setBit g b q)) ∧
  (∀ (f₁ f₂ f₃ g : FamilyCode) (l x m index on : Word) (s : State), 1 ≤ index.toNat → index.toNat ≤ 19 →
    ∀ i ∈ [Instr.setLabel f₁ l, .setSdi f₂ x, .setSsm f₃ m], commuteFrom s (.setBit g index on) i) ∧
  (∀ (fam : Family) (q : Status) (code : Ssm), statusCode fam q = some code →
    (∀ (f₁ f₂ f₃ : FamilyCode) (l x v : Word) (s : State),
      ∀ i ∈ [Instr.setLabel f₁ l, .setSdi f₂ x, .setValue f₃ v], commuteFrom s (aliasSetSsm fam q) i) ∧
    (∀ (g : FamilyCode) (index on : Word) (s : State), 1 ≤ index.toNat → index.toNat ≤ 19 →
      commuteFrom s (aliasSetSsm fam q) (.setBit g index on)))

/-- DECODE followed by a setter whose operand equals the field already held gives the word back if its parity
was good, and the word with bit 31 flipped otherwise: the setter hides the error (R110 (e), R164, derived by
the spec). -/
def Obligations.SetterRepairsParity : Prop :=
  (∀ (f : FamilyCode) (r : Word) (s : State),
    ∀ i ∈ [Instr.setLabel f ((labelOf r).setWidth 32), .setSdi f ((sdiOf r).setWidth 32),
        .setValue f ((valueOf r).setWidth 32), .setSsm f ((ssmOf r).setWidth 32)],
    ∃ t, runCommands [.decode f r, i] s = .next t ∧
      t.w = if popcount r % 2 = 1 then r else r ^^^ 0x80000000#32) ∧
  (∀ (f : FamilyCode) (r index on : Word) (s : State), 1 ≤ index.toNat → index.toNat ≤ 19 →
    on.getLsbD 0 = r.getLsbD (9 + index.toNat) →
    ∃ t, runCommands [.decode f r, .setBit f index on] s = .next t ∧
      t.w = if popcount r % 2 = 1 then r else r ^^^ 0x80000000#32)

/-- BCD_NEW leaves the same word as the four setters issued in any order from any start state (R121's corner
case, derived by the spec). -/
def Obligations.BcdNewEqualsFourSetters : Prop :=
  ∀ (f : FamilyCode) (l x v m : Word) (s : State) (is : List Instr),
    is.Perm [.setLabel f l, .setSdi f x, .setValue f v, .setSsm f m] →
    ∃ t, runCommands is s = .next t ∧ exec (.bcdNew l x v m) s = .next t

/-- Setting a 0 bit of the value adds its weight, clearing a 1 bit subtracts it, and writing the bit already
held leaves the value (R90, the source's property 3). -/
def Obligations.SetBitAddsOrSubtractsWeight : Prop :=
  ∀ (f : FamilyCode) (index on : Word) (s : State), 1 ≤ index.toNat → index.toNat ≤ 19 →
    ∃ t, exec (.setBit f index on) s = .next t ∧
      (s.w.getLsbD (9 + index.toNat) = false → on.getLsbD 0 = true →
        t.valueO.toNat = s.valueO.toNat + 2 ^ (index.toNat - 1)) ∧
      (s.w.getLsbD (9 + index.toNat) = true → on.getLsbD 0 = false →
        t.valueO.toNat + 2 ^ (index.toNat - 1) = s.valueO.toNat) ∧
      (s.w.getLsbD (9 + index.toNat) = on.getLsbD 0 → t.valueO = s.valueO)

/-- The reinterpretation law (R128, the source's property 8; derived by the spec): the three GET_STATUS read
the same word and leave it; FailureWarning under Discrete, NormalOperation under BNR,
MinusSouthWestLeftFromBelow under BCD and SET_SSM 3 leave the same word; a member set under one family reads
under another as what its code means there. -/
def Obligations.StatusReinterpretation : Prop :=
  (∀ (s : State), ∀ fam : Family,
    exec (aliasGetSsm fam) s =
      .next { s with response := .answer ((statusNumber (statusOf fam s.ssmO)).setWidth 32) }) ∧
  (∀ (f : FamilyCode) (s : State), ∃ t, exec (aliasSetSsm .discrete .failureWarning) s = .next t ∧
    exec (aliasSetSsm .bnr .normalOperation) s = .next t ∧
    exec (aliasSetSsm .bcd .minusSouthWestLeftFromBelow) s = .next t ∧ exec (.setSsm f 3) s = .next t) ∧
  (∀ (s : State) (x y : Family) (q : Status) (code : Ssm), statusCode x q = some code →
    ∃ t, runCommands [aliasSetSsm x q, aliasGetSsm y] s = .next t ∧
      t.response = .answer ((statusNumber (statusOf y code)).setWidth 32))

/-- R72's aliases through the assembler of R71 (the spec's decisions D20, D23): each alias line assembles to
its expansion; the prefixed DECODE lines carry `fam` 1, 2, 3; a SET_STATUS line with a member's name, of any
family and any member, is the line with that member's number (R66) and carries its family's command word and
the number on port `a`; a GET_STATUS line carries its family's command word. -/
def Obligations.AliasesExpand : Prop :=
  (∀ (f : FamilyCode) (raw : Word),
    assemble f .set [.number raw] = assemble f .decode [.number raw] ∧
    assemble f .set [.number raw] = some (.decode f raw)) ∧
  (∀ l x v m : Word,
    assemble .none .encode [.number l, .number x, .number v, .number m] =
      assemble .none .bcdNew [.number l, .number x, .number v, .number m] ∧
    assemble .none .encode [.number l, .number x, .number v, .number m] = some (.bcdNew l x v m)) ∧
  (∀ raw : Word, (encode (.decode .discrete raw)).cmd = 0x11#6 ∧ (encode (.decode .bnr raw)).cmd = 0x21#6 ∧
    (encode (.decode .bcd raw)).cmd = 0x31#6) ∧
  (∀ (f : FamilyCode) (i : Word),
    assemble f .clrBit [.number i] = assemble f .setBit [.number i, .number 0] ∧
    assemble f .clrBit [.number i] = some (.setBit f i 0)) ∧
  (∀ (fam : Family) (m : Status),
    assemble .none (.setStatus fam) [.member m] =
      assemble .none (.setStatus fam) [.number ((statusNumber m).setWidth 32)] ∧
    assemble .none (.setStatus fam) [.member m] = some (aliasSetSsm fam m) ∧
    (encode (aliasSetSsm fam m)).cmd =
      (match fam with | .discrete => 0x1B#6 | .bnr => 0x2B#6 | .bcd => 0x3B#6) ∧
    (encode (aliasSetSsm fam m)).a =
      (match m with
        | .normalOperation => 0#32 | .noComputedData => 1#32 | .functionalTest => 2#32
        | .failureWarning => 3#32 | .plusNorthEastRightToAbove => 4#32
        | .minusSouthWestLeftFromBelow => 5#32)) ∧
  (∀ fam : Family,
    assemble .none (.getStatus fam) [] = some (aliasGetSsm fam) ∧
    (encode (aliasGetSsm fam)).cmd =
      (match fam with | .discrete => 0x1A#6 | .bnr => 0x2A#6 | .bcd => 0x3A#6))
end

