-- ==== Sys2Proof/Laws/Decode.lean ====
section
/-! SUPPORT. Everything the decoder can answer, said once over the numbers of the command word (R63, R73). -/

namespace Sys2Proof

/-- What a command decodes to, by its operation number and its family number: eighteen cases that exclude each
other and leave nothing out. -/
theorem decodeCommand_cases (c : Command) :
    (c.cmd.toNat % 16 = 0 ∧ decodeCommand c = .ok (.empty c.fam)) ∨
    (c.cmd.toNat % 16 = 1 ∧ decodeCommand c = .ok (.decode c.fam c.a)) ∨
    (c.cmd.toNat % 16 = 2 ∧ decodeCommand c = .ok (.setLabel c.fam c.a)) ∨
    (c.cmd.toNat % 16 = 3 ∧ decodeCommand c = .ok (.setSdi c.fam c.a)) ∨
    (c.cmd.toNat % 16 = 4 ∧ decodeCommand c = .ok (.setValue c.fam c.a)) ∨
    (c.cmd.toNat % 16 = 5 ∧ decodeCommand c = .ok (.setSsm c.fam c.a)) ∨
    (c.cmd.toNat % 16 = 6 ∧ decodeCommand c = .ok (.setBit c.fam c.a c.b)) ∨
    (c.cmd.toNat % 16 = 7 ∧ decodeCommand c = .ok (.getBit c.fam c.a)) ∨
    (c.cmd.toNat % 16 = 8 ∧ decodeCommand c = .ok (.getSsm c.fam)) ∨
    (c.cmd = 0x39#6 ∧ decodeCommand c = .ok (.bcdNew c.a c.b c.c c.d)) ∨
    (c.cmd = 0x1A#6 ∧ decodeCommand c = .ok .getStatusD) ∨
    (c.cmd = 0x2A#6 ∧ decodeCommand c = .ok .getStatusN) ∨
    (c.cmd = 0x3A#6 ∧ decodeCommand c = .ok .getStatusB) ∨
    (c.cmd = 0x1B#6 ∧ decodeCommand c = .ok (.setStatusD c.a)) ∨
    (c.cmd = 0x2B#6 ∧ decodeCommand c = .ok (.setStatusN c.a)) ∨
    (c.cmd = 0x3B#6 ∧ decodeCommand c = .ok (.setStatusB c.a)) ∨
    (c.cmd.toNat % 16 ≥ 12 ∧ decodeCommand c = .error .reservedOpcode) ∨
    (((c.cmd.toNat % 16 = 9 ∧ c.cmd.toNat / 16 ≠ 3) ∨
      ((c.cmd.toNat % 16 = 10 ∨ c.cmd.toNat % 16 = 11) ∧ c.cmd.toNat / 16 = 0)) ∧
      decodeCommand c = .error .badFamily) := by
  obtain ⟨cmd, a, b, d, e⟩ := c
  obtain ⟨n, hn, rfl⟩ : ∃ n < 64, cmd = BitVec.ofNat 6 n := ⟨cmd.toNat, cmd.isLt, by simp⟩
  interval_cases n <;>
    simp [decodeCommand, opcodeTable, baseRows, familyRows, OpcodeRow.hits, opField]

end Sys2Proof
end

