-- ==== Sys2Proof/Laws/Fields.lean ====
section
/-! SUPPORT. The masks, the demultiplexer, the multiplexer and the bit operand of SET_BIT, each said once bit
by bit; later proofs cite these instead of unfolding slices and shifts. -/

namespace Sys2Proof.Machine

@[simp] theorem maskLabel_getLsbD (x : Word) (i : Nat) :
    (maskLabel x).getLsbD i = (decide (i < 8) && x.getLsbD i) := by simp [maskLabel]
@[simp] theorem maskSdi_getLsbD (x : Word) (i : Nat) :
    (maskSdi x).getLsbD i = (decide (i < 2) && x.getLsbD i) := by simp [maskSdi]
@[simp] theorem maskValue_getLsbD (x : Word) (i : Nat) :
    (maskValue x).getLsbD i = (decide (i < 19) && x.getLsbD i) := by simp [maskValue]
@[simp] theorem maskSsm_getLsbD (x : Word) (i : Nat) :
    (maskSsm x).getLsbD i = (decide (i < 2) && x.getLsbD i) := by simp [maskSsm]

@[simp] theorem labelOf_getLsbD (r : Word) (i : Nat) :
    (labelOf r).getLsbD i = (decide (i < 8) && r.getLsbD i) := by simp [labelOf]
@[simp] theorem sdiOf_getLsbD (r : Word) (i : Nat) :
    (sdiOf r).getLsbD i = (decide (i < 2) && r.getLsbD (8 + i)) := by simp [sdiOf]
@[simp] theorem valueOf_getLsbD (r : Word) (i : Nat) :
    (valueOf r).getLsbD i = (decide (i < 19) && r.getLsbD (10 + i)) := by simp [valueOf]
@[simp] theorem ssmOf_getLsbD (r : Word) (i : Nat) :
    (ssmOf r).getLsbD i = (decide (i < 2) && r.getLsbD (29 + i)) := by simp [ssmOf]
@[simp] theorem parityOf_getLsbD (r : Word) (i : Nat) :
    (parityOf r).getLsbD i = (decide (i < 1) && r.getLsbD (31 + i)) := by simp [parityOf]

/-- Every bit of a composite word comes from exactly one field, and bit 31 is zero. -/
theorem composite_getLsbD (l : Label) (s : Sdi) (v : Value) (m : Ssm) (i : Nat) :
    (composite l s v m).getLsbD i =
      if i < 8 then l.getLsbD i else if i < 10 then s.getLsbD (i - 8)
      else if i < 29 then v.getLsbD (i - 10) else m.getLsbD (i - 29) := by
  have hl := l.getLsbD_of_ge i
  have hs := s.getLsbD_of_ge (i - 8)
  have hv := v.getLsbD_of_ge (i - 10)
  have hm := m.getLsbD_of_ge (i - 29)
  simp only [composite, BitVec.getLsbD_or, BitVec.getLsbD_shiftLeft, BitVec.getLsbD_setWidth]
  split_ifs with h1 h2 h3
  · simp [show i < 32 by omega, h1, show i < 10 by omega, show i < 29 by omega]
  · simp [show i < 32 by omega, h1, h2, show i < 29 by omega, hl (by omega), show i - 8 < 32 by omega]
  · simp [show i < 32 by omega, h1, h2, h3, hl (by omega), hs (by omega), show i - 10 < 32 by omega]
  · rw [hl (by omega), hs (by omega), hv (by omega)]
    by_cases h : i < 32
    · simp [h, h3, show i - 29 < 32 by omega]
    · simp [h, hm (by omega)]

/-- Every bit of a recombined word below bit 31 is the composite's, and bit 31 is the parity bit. -/
theorem recombine_getLsbD (l : Label) (s : Sdi) (v : Value) (m : Ssm) (p : Bit) (i : Nat) :
    (recombine l s v m p).getLsbD i =
      if i = 31 then p.getLsbD 0 else (composite l s v m).getLsbD i := by
  have h31 : (composite l s v m).getLsbD 31 = false := by
    rw [composite_getLsbD]; exact m.getLsbD_of_ge 2 (by decide)
  simp only [recombine, BitVec.getLsbD_or, BitVec.getLsbD_shiftLeft, BitVec.getLsbD_setWidth]
  by_cases h : i = 31
  · subst h
    rw [h31]; simp
  · by_cases h' : i < 31
    · simp [h, h', show i < 32 by omega]
    · simp [h, show ¬ i < 32 by omega]

/-- A bit-index operand selects bit `a - 1` exactly for the whole operand in 1..19 (R68). -/
theorem bitIndex_eq_some_iff (a : Word) (k : Nat) :
    bitIndex a = some k ↔ a.toNat = k + 1 ∧ k < 19 := by
  unfold bitIndex
  split_ifs with h
  · simp only [Option.some.injEq]; omega
  · simp only [false_iff]; omega

/-- Outside 1..19 a bit-index operand selects nothing (R69). -/
theorem bitIndex_eq_none_iff (a : Word) : bitIndex a = none ↔ a.toNat = 0 ∨ 19 < a.toNat := by
  unfold bitIndex
  split_ifs with h
  · simp only [false_iff]; omega
  · simp only [true_iff]; omega

/-- The value after SET_BIT: bit `k` is `on`, every other bit as before. -/
theorem withValueBit_getLsbD (v : Value) (k : Nat) (on : Bool) (i : Nat) (hk : k < 19) :
    (withValueBit v k on).getLsbD i = if i = k then on else v.getLsbD i := by
  have hv := v.getLsbD_of_ge i
  cases on <;> simp only [withValueBit, BitVec.getLsbD_or, BitVec.getLsbD_and, BitVec.getLsbD_not,
    BitVec.getLsbD_shiftLeft, BitVec.getLsbD_one, if_true, Bool.false_eq_true, if_false]
  all_goals
    by_cases h : i = k
    · subst h; simp [hk]
    · by_cases h1 : i < 19
      · by_cases h2 : i < k
        · simp [h, h1, h2]
        · simp [h, h1, show ¬ i - k = 0 by omega]
      · simp [h, h1, hv (by omega)]

end Sys2Proof.Machine
end

