-- ==== Sys2Proof/Laws/State.lean ====
section
/-! SUPPORT. One lemma per field per update of State, so that no proof unfolds a record update. -/

namespace Sys2Proof.Machine

@[simp] theorem writeWord_w (s : State) (v : Word) : (s.writeWord v).w = v := rfl
@[simp] theorem writeWord_response (s : State) (v : Word) : (s.writeWord v).response = s.response := rfl
@[simp] theorem writeWord_inputs (s : State) (v : Word) : (s.writeWord v).inputs = s.inputs := rfl

@[simp] theorem give_w (s : State) (r : Response) : (s.give r).w = s.w := rfl
@[simp] theorem give_response (s : State) (r : Response) : (s.give r).response = r := rfl
@[simp] theorem give_inputs (s : State) (r : Response) : (s.give r).inputs = s.inputs := rfl

@[simp] theorem reset_w : State.reset.w = 0#32 := rfl
@[simp] theorem reset_response : State.reset.response = .silent := rfl
@[simp] theorem reset_inputs : State.reset.inputs = [] := rfl

@[simp] theorem withFetchWord_w (s : State) (n w : Nat) : (s.withFetchWord n w).w = s.w := rfl
@[simp] theorem withFetchWord_response (s : State) (n w : Nat) :
    (s.withFetchWord n w).response = s.response := rfl
@[simp] theorem withFetchWord_inputs (s : State) (n w : Nat) :
    (s.withFetchWord n w).inputs = present (tableCommand n w) :: s.inputs := rfl

/-- Taking an input never touches the word. -/
@[simp] theorem takeInput_w (s : State) : (takeInput s).2.w = s.w := by
  cases h : s.inputs <;> simp [takeInput, h]

/-- Taking an input drops it from the list. -/
@[simp] theorem takeInput_inputs (s : State) : (takeInput s).2.inputs = s.inputs.drop 1 := by
  cases h : s.inputs <;> simp [takeInput, h]

/-- The input taken is the oldest one, or an idle port where there is none. -/
@[simp] theorem takeInput_pins (s : State) : (takeInput s).1 = s.inputs.headD idlePins := by
  cases h : s.inputs <;> simp [takeInput, h]

end Sys2Proof.Machine
end

