-- ==== Sys2Proof/Laws/Ops.lean ====
section
/-! SUPPORT. Everything a shared operation can do, said once: each answers a next state, and which one. -/

namespace Sys2Proof.Machine

/-- Writing silently: the new word, no answer, the inputs untouched. -/
theorem writeSilently_next {v : Word} {s t : State} (h : writeSilently v s = .next t) :
    t.w = v ∧ t.response = .silent ∧ t.inputs = s.inputs := by
  cases h; exact ⟨rfl, rfl, rfl⟩

/-- Committing: the recombined word with its computed parity bit, no answer, the inputs untouched. -/
theorem commit_next {l : Label} {x : Sdi} {v : Value} {m : Ssm} {s t : State}
    (h : commit l x v m s = .next t) :
    t.w = recombine l x v m (parityBit l x v m) ∧ t.response = .silent ∧ t.inputs = s.inputs :=
  writeSilently_next h

/-- Responding: the word and the inputs untouched. -/
theorem respond_next {v : Word} {s t : State} (h : respond v s = .next t) :
    t.w = s.w ∧ t.response = .answer v ∧ t.inputs = s.inputs := by
  cases h; exact ⟨rfl, rfl, rfl⟩

/-- Refusing: the word and the inputs untouched, the cause reported. -/
theorem raiseIllegal_next {c : IllegalCause} {s t : State} (h : raiseIllegal c s = .next t) :
    t.w = s.w ∧ t.response = .illegal c ∧ t.inputs = s.inputs := by
  cases h; exact ⟨rfl, rfl, rfl⟩

/-- The idle step: the word and the inputs untouched, no answer. -/
theorem idleEvent_next {s t : State} (h : idleEvent s = .next t) :
    t.w = s.w ∧ t.response = .silent ∧ t.inputs = s.inputs := by
  cases h; exact ⟨rfl, rfl, rfl⟩

/-- The bits of a committed word below the parity bit. -/
theorem commit_word_getLsbD (l : Label) (x : Sdi) (v : Value) (m : Ssm) (p : Bit) (i : Nat) (hi : i < 31) :
    (recombine l x v m p).getLsbD i = (composite l x v m).getLsbD i := by
  rw [recombine_getLsbD, if_neg (by omega)]

end Sys2Proof.Machine
end

