-- ==== Sys2Proof/Laws/Exec.lean ====
section
/-! SUPPORT. Everything a command can do, said once: it answers a next state that differs from the one it found
in the word and the response alone, and both are a function of the word it found. -/

namespace Sys2Proof.Machine

/-- The word and the response an outcome leaves; what stands for an outcome that is no next state is never
used. -/
def Result.effect (o : Result) : Word × Response :=
  match o with
  | .next t => (t.w, t.response)
  | .fault _ => (0#32, .silent)
  | .refused _ => (0#32, .silent)

/-- The word and the response a command leaves, as a function of the word it finds. -/
def effectOf (i : Instr) (w : Word) : Word × Response := Result.effect (exec i ⟨w, .silent, []⟩)

/-- The word and the response Commit leaves. -/
def committed (l : Label) (x : Sdi) (v : Value) (m : Ssm) : Word × Response :=
  (recombine l x v m (parityBit l x v m), .silent)

/-- Every command has its effect, and no other. -/
theorem exec_eq (i : Instr) (s : State) :
    exec i s = .next { s with w := (effectOf i s.w).1, response := (effectOf i s.w).2 } := by
  cases i with
  | setBit f index on => simp only [exec, execSetBit, effectOf]; cases bitIndex index <;> rfl
  | getBit f index => simp only [exec, execGetBit, effectOf]; cases bitIndex index <;> rfl
  | setStatusD a =>
    simp only [exec, execSetStatusD, setStatus, effectOf]; cases statusOperand .discrete a <;> rfl
  | setStatusN a => simp only [exec, execSetStatusN, setStatus, effectOf]; cases statusOperand .bnr a <;> rfl
  | setStatusB a => simp only [exec, execSetStatusB, setStatus, effectOf]; cases statusOperand .bcd a <;> rfl
  | _ => rfl

theorem effectOf_empty (f : FamilyCode) (w : Word) : effectOf (.empty f) w = (0#32, .silent) := rfl

theorem effectOf_decode (f : FamilyCode) (raw w : Word) : effectOf (.decode f raw) w = (raw, .silent) := rfl

theorem effectOf_setLabel (f : FamilyCode) (l w : Word) :
    effectOf (.setLabel f l) w = committed (maskLabel l) (sdiOf w) (valueOf w) (ssmOf w) := rfl

theorem effectOf_setSdi (f : FamilyCode) (x w : Word) :
    effectOf (.setSdi f x) w = committed (labelOf w) (maskSdi x) (valueOf w) (ssmOf w) := rfl

theorem effectOf_setValue (f : FamilyCode) (v w : Word) :
    effectOf (.setValue f v) w = committed (labelOf w) (sdiOf w) (maskValue v) (ssmOf w) := rfl

theorem effectOf_setSsm (f : FamilyCode) (x w : Word) :
    effectOf (.setSsm f x) w = committed (labelOf w) (sdiOf w) (valueOf w) (maskSsm x) := rfl

theorem effectOf_setBit (f : FamilyCode) (index on w : Word) :
    effectOf (.setBit f index on) w = match bitIndex index with
      | none => (w, .illegal .badBitIndex)
      | some k => committed (labelOf w) (sdiOf w) (withValueBit (valueOf w) k (onOperand on)) (ssmOf w) := by
  simp only [exec, execSetBit, effectOf]; cases bitIndex index <;> rfl

theorem effectOf_getBit (f : FamilyCode) (index w : Word) :
    effectOf (.getBit f index) w = match bitIndex index with
      | none => (w, .illegal .badBitIndex)
      | some k => (w, .answer (((valueOf w).extractLsb' k 1).setWidth 32)) := by
  simp only [exec, execGetBit, effectOf]; cases bitIndex index <;> rfl

theorem effectOf_getSsm (f : FamilyCode) (w : Word) :
    effectOf (.getSsm f) w = (w, .answer ((ssmOf w).setWidth 32)) := rfl

theorem effectOf_bcdNew (l x v m w : Word) :
    effectOf (.bcdNew l x v m) w = committed (maskLabel l) (maskSdi x) (maskValue v) (maskSsm m) := rfl

theorem effectOf_getStatusD (w : Word) : effectOf .getStatusD w =
    (w, .answer ((statusNumber (statusOf .discrete (ssmOf w))).setWidth 32)) := rfl

theorem effectOf_getStatusN (w : Word) : effectOf .getStatusN w =
    (w, .answer ((statusNumber (statusOf .bnr (ssmOf w))).setWidth 32)) := rfl

theorem effectOf_getStatusB (w : Word) : effectOf .getStatusB w =
    (w, .answer ((statusNumber (statusOf .bcd (ssmOf w))).setWidth 32)) := rfl

/-- What SET_STATUS leaves, for the family of the command. -/
def statusEffect (fam : Family) (a w : Word) : Word × Response :=
  match statusOperand fam a with
  | none => (w, .illegal .badStatus)
  | some m => committed (labelOf w) (sdiOf w) (valueOf w) m

theorem effectOf_setStatusD (a w : Word) : effectOf (.setStatusD a) w = statusEffect .discrete a w := by
  simp only [exec, execSetStatusD, setStatus, effectOf, statusEffect]
  cases statusOperand .discrete a <;> rfl

theorem effectOf_setStatusN (a w : Word) : effectOf (.setStatusN a) w = statusEffect .bnr a w := by
  simp only [exec, execSetStatusN, setStatus, effectOf, statusEffect]
  cases statusOperand .bnr a <;> rfl

theorem effectOf_setStatusB (a w : Word) : effectOf (.setStatusB a) w = statusEffect .bcd a w := by
  simp only [exec, execSetStatusB, setStatus, effectOf, statusEffect]
  cases statusOperand .bcd a <;> rfl

end Sys2Proof.Machine
end

