-- ==== Sys2Proof/Laws/Parity.lean ====
section
/-! SUPPORT. The parity calculator, step by step: counting bits against XOR of bits, the table, the fold. -/

namespace Sys2Proof.Machine

/-- The XOR of the bits of `v` numbered in `is`. -/
def xorBits {n : Nat} (v : BitVec n) (is : List Nat) : Bool := is.foldr (fun i b => v.getLsbD i ^^ b) false

/-- Counting bits modulo two is XOR of the bits. -/
theorem sum_bits_mod_two {n : Nat} (v : BitVec n) (is : List Nat) :
    (is.map fun i => (v.getLsbD i).toNat).sum % 2 = (xorBits v is).toNat := by
  induction is with
  | nil => rfl
  | cons i is ih =>
    have : xorBits v (i :: is) = (v.getLsbD i ^^ xorBits v is) := rfl
    rw [List.map_cons, List.sum_cons, Nat.add_mod, ih, this]
    cases v.getLsbD i <;> cases xorBits v is <;> rfl

/-- `popcount` modulo two is the XOR of all the bits. -/
theorem popcount_mod_two {n : Nat} (v : BitVec n) :
    popcount v % 2 = (xorBits v (List.range n)).toNat := sum_bits_mod_two v _

/-- `ParityOK` is the XOR of all 32 bits. -/
theorem parityOK_eq_xorBits (r : Word) : parityOK r = xorBits r (List.range 32) := by
  unfold parityOK
  rw [popcount_mod_two]
  cases xorBits r (List.range 32) <;> rfl

/-- A table entry is the XOR of its index's four bits. -/
theorem parityEntry_getLsbD (n : BitVec 4) : (parityEntry n).getLsbD 0 = xorBits n (List.range 4) := by
  revert n; decide

/-- Bit `j` of the fold is the XOR of the eight bits of the word that lie a multiple of four above it. -/
theorem fold_getLsbD (c : Word) (j : Nat) (hj : j < 4) :
    (fold c).getLsbD j = xorBits c [j, j + 4, j + 8, j + 12, j + 16, j + 20, j + 24, j + 28] := by
  simp only [fold, xorBits, List.foldr, BitVec.getLsbD_extractLsb', BitVec.getLsbD_xor,
    BitVec.getLsbD_ushiftRight, hj, decide_true, Bool.true_and, Bool.xor_false, zero_add, Nat.add_comm j,
    Nat.reduceAdd, ← Nat.add_assoc]
  simp only [Bool.xor_assoc, Bool.xor_left_comm]

/-- XOR over two lists of bits, one after the other. -/
theorem xorBits_append {n : Nat} (v : BitVec n) (is js : List Nat) :
    xorBits v (is ++ js) = (xorBits v is ^^ xorBits v js) := by
  induction is with
  | nil => simp [xorBits]
  | cons i is ih => exact (congrArg (v.getLsbD i ^^ ·) ih).trans (Bool.xor_assoc ..).symm

/-- XOR does not depend on the order of the bits. -/
theorem xorBits_perm {n : Nat} (v : BitVec n) {is js : List Nat} (h : is.Perm js) :
    xorBits v is = xorBits v js := by
  induction h with
  | nil => rfl
  | cons i _ ih => exact congrArg (v.getLsbD i ^^ ·) ih
  | swap i j is => exact Bool.xor_left_comm ..
  | trans _ _ h₁ h₂ => exact h₁.trans h₂

/-- Folding keeps the XOR of all the bits. -/
theorem xorBits_fold (c : Word) : xorBits (fold c) (List.range 4) = xorBits c (List.range 32) := by
  have h : xorBits (fold c) (List.range 4) =
      ((fold c).getLsbD 0 ^^ ((fold c).getLsbD 1 ^^ ((fold c).getLsbD 2 ^^ ((fold c).getLsbD 3 ^^ false)))) := rfl
  rw [h, fold_getLsbD c 0 (by decide), fold_getLsbD c 1 (by decide), fold_getLsbD c 2 (by decide),
    fold_getLsbD c 3 (by decide), Bool.xor_false, ← xorBits_append, ← xorBits_append, ← xorBits_append]
  exact xorBits_perm c (by decide)

/-- The parity bit is the negated XOR of the composite's bits. -/
theorem parityBit_getLsbD (l : Label) (s : Sdi) (v : Value) (m : Ssm) :
    (parityBit l s v m).getLsbD 0 = !xorBits (composite l s v m) (List.range 32) := by
  have inv : ∀ b : Bit, (1#1 - b).getLsbD 0 = !b.getLsbD 0 := by decide
  rw [parityBit, inv, parityEntry_getLsbD, xorBits_fold]

end Sys2Proof.Machine
end

