-- ==== Sys2Proof/Laws/PerInstr.lean ====
section
/-! SUPPORT. The family OneRow, made per instruction: the command word the encoder gives an instruction is
matched by exactly one row of the opcode table (R73: "at most one row matches"). -/

namespace Sys2Proof.Laws.OneRow

/-- How many rows of the opcode table match a command word. -/
def rowsMatching (cmd : CommandWord) : Nat := opcodeTable.countP fun row => row.hits cmd

/-- Exactly one row of the opcode table matches the instruction's command word. -/
def Statement (i : Instr) : Prop := rowsMatching i.word = 1

/-- Every family-blind operation number, whatever the `fam` bits. -/
theorem blind (f : FamilyCode) : ∀ op < 9, rowsMatching (commandWord f op) = 1 := by
  cases f <;> decide

theorem empty (f : FamilyCode) : Statement (.empty f) := blind f 0 (by decide)
theorem decode (f : FamilyCode) (x : Word) : Statement (.decode f x) := blind f 1 (by decide)
theorem setLabel (f : FamilyCode) (x : Word) : Statement (.setLabel f x) := blind f 2 (by decide)
theorem setSdi (f : FamilyCode) (x : Word) : Statement (.setSdi f x) := blind f 3 (by decide)
theorem setValue (f : FamilyCode) (x : Word) : Statement (.setValue f x) := blind f 4 (by decide)
theorem setSsm (f : FamilyCode) (x : Word) : Statement (.setSsm f x) := blind f 5 (by decide)
theorem setBit (f : FamilyCode) (x y : Word) : Statement (.setBit f x y) := blind f 6 (by decide)
theorem getBit (f : FamilyCode) (x : Word) : Statement (.getBit f x) := blind f 7 (by decide)
theorem getSsm (f : FamilyCode) : Statement (.getSsm f) := blind f 8 (by decide)
theorem bcdNew (l s v m : Word) : Statement (.bcdNew l s v m) :=
  (by decide : rowsMatching (commandWord .bcd 9) = 1)
theorem getStatusD : Statement .getStatusD := (by decide : rowsMatching (commandWord .discrete 10) = 1)
theorem getStatusN : Statement .getStatusN := (by decide : rowsMatching (commandWord .bnr 10) = 1)
theorem getStatusB : Statement .getStatusB := (by decide : rowsMatching (commandWord .bcd 10) = 1)
theorem setStatusD (x : Word) : Statement (.setStatusD x) :=
  (by decide : rowsMatching (commandWord .discrete 11) = 1)
theorem setStatusN (x : Word) : Statement (.setStatusN x) :=
  (by decide : rowsMatching (commandWord .bnr 11) = 1)
theorem setStatusB (x : Word) : Statement (.setStatusB x) :=
  (by decide : rowsMatching (commandWord .bcd 11) = 1)

end Sys2Proof.Laws.OneRow
end

