-- ==== Sys2Proof/Laws/Step.lean ====
section
/-! SUPPORT. One inversion lemma for the step: what a step that answers a next state can have been. -/

namespace Sys2Proof.Machine

/-- A step is the reset event, the idle step, a decoded command, or the refusal of an undecodable one; each
runs on the state whose input has been taken. -/
theorem step_cases (s : State) :
    (eventOf (takeInput s).1 = .reset ∧ step s = resetEvent (takeInput s).2) ∨
    (eventOf (takeInput s).1 = .idle ∧ step s = idleEvent (takeInput s).2) ∨
    (∃ c i, eventOf (takeInput s).1 = .command c ∧ decodeCommand c = .ok i ∧
      step s = exec i (takeInput s).2) ∨
    (∃ c e, eventOf (takeInput s).1 = .command c ∧ decodeCommand c = .error e ∧
      step s = raiseIllegal e (takeInput s).2) := by
  unfold step
  cases h : eventOf (takeInput s).1 with
  | reset => exact .inl ⟨rfl, rfl⟩
  | idle => exact .inr (.inl ⟨rfl, rfl⟩)
  | command c =>
    cases hd : decodeCommand c with
    | ok i => exact .inr (.inr (.inl ⟨c, i, rfl, hd, by simp [hd]⟩))
    | error e => exact .inr (.inr (.inr ⟨c, e, rfl, hd, by simp [hd]⟩))

end Sys2Proof.Machine
end

