-- ==== Sys2Proof/Laws/Validator.lean ====
section
/-! SUPPORT. The status tables as closed facts, and the status operand of SET_STATUS said once. -/

namespace Sys2Proof.Machine

/-- The 3-bit code of a member names that member. -/
@[simp] theorem statusOfNumber_statusNumber (m : Status) : statusOfNumber (statusNumber m) = some m := by
  cases m <;> rfl

/-- A status operand is accepted exactly if it is the zero-extended 3-bit code of a member of the family. -/
theorem statusOperand_eq_some_iff (fam : Family) (a : Word) (x : Ssm) :
    statusOperand fam a = some x ↔
      ∃ q, a = (statusNumber q).setWidth 32 ∧ statusCode fam q = some x := by
  unfold statusOperand
  split_ifs with h
  · simp only [false_iff, not_exists, not_and]
    intro q hq
    subst hq
    cases q <;> exact absurd h (by decide)
  · obtain ⟨n, rfl⟩ : ∃ n : BitVec 3, a = n.setWidth 32 :=
      ⟨a.setWidth 3, by apply BitVec.eq_of_toNat_eq; simp; omega⟩
    have hx : (n.setWidth 32).extractLsb' 0 3 = n := by revert n; decide
    rw [hx]
    constructor
    · intro hb
      obtain ⟨q, hq, hc⟩ := Option.bind_eq_some_iff.1 hb
      have : n = statusNumber q := by
        clear hx hb hc h; revert n; cases q <;> decide
      exact ⟨q, by rw [this], hc⟩
    · rintro ⟨q, hq, hc⟩
      have : n = statusNumber q := by
        clear hx hc h; revert n; cases q <;> decide
      subst this
      simpa using hc

end Sys2Proof.Machine
end

