-- ==== Sys2Proof/Tests/Slice0.lean ====
section
/-! SUPPORT. Small tests of one step each, and the witnesses of the statements' hypotheses. Every expected
result is a row of spec/95_test_vectors.md (S and V numbers) or is written out from the spec's tables; none is
the model's own answer. -/

namespace Sys2Proof.Tests

open Sys2Proof.Machine Sys2Proof.Safety

/-- The word 95_test_vectors.md calls W0. -/
def w0 : Word := 0x918C44B0#32

/-- A block that holds `w`, the host presenting nothing. -/
def holding (w : Word) : State := ⟨w, .silent, []⟩

/-- A block that holds `w` with one command presented. -/
def offered (w : Word) (c : Command) : State := ⟨w, .silent, [present c]⟩

/-- A command word with its first two operand ports. -/
def cmd2 (n : CommandWord) (a b : Word) : Command := ⟨n, a, b, 0, 0⟩

/-- The word and the response of a next state. -/
def seen (o : Result) : Option (Word × Response) :=
  match o with
  | .next t => some (t.w, t.response)
  | .fault _ => none
  | .refused _ => none

/-- The word and the response after one step on a presented command. -/
def after (w : Word) (c : Command) : Option (Word × Response) := seen (step (offered w c))

/-! ### Well-formed: one ill-formed term for each check, and the ends of each accepted range (R68, R69) -/

theorem test_wf_setBit_below : (Instr.setBit .none 0 1).wellFormed = false := by decide
theorem test_wf_setBit_above : (Instr.setBit .none 20 1).wellFormed = false := by decide
theorem test_wf_getBit_below : (Instr.getBit .bcd 0).wellFormed = false := by decide
theorem test_wf_getBit_above : (Instr.getBit .bcd 33).wellFormed = false := by decide
theorem test_wf_setStatusD : (Instr.setStatusD 4).wellFormed = false := by decide
theorem test_wf_setStatusN : (Instr.setStatusN 8).wellFormed = false := by decide
theorem test_wf_setStatusB_discrete_member : (Instr.setStatusB 3).wellFormed = false := by decide
theorem test_wf_setStatusB_wide : (Instr.setStatusB 0xD).wellFormed = false := by decide
theorem test_wf_accepts : ∀ i ∈ [Instr.setBit .none 1 0, .setBit .none 19 1, .getBit .bnr 19, .setStatusD 3,
    .setStatusN 0, .setStatusB 4, .setStatusB 5, .setSdi .none 0xFFFFFFFF], i.wellFormed = true := by decide

/-! ### Decoding: words written out bit by bit from R63, R65 and R73, one for every constructor -/

theorem test_decode_empty : decodeCommand ⟨0b000000#6, 1, 2, 3, 4⟩ = .ok (.empty .none) := by decide
theorem test_decode_decode : decodeCommand (cmd2 0b110001#6 0x12345678 0) = .ok (.decode .bcd 0x12345678) := by
  decide
theorem test_decode_setLabel : decodeCommand (cmd2 0b010010#6 0x1B1 0) = .ok (.setLabel .discrete 0x1B1) := by
  decide
theorem test_decode_setSdi : decodeCommand (cmd2 0b000011#6 7 0) = .ok (.setSdi .none 7) := by decide
theorem test_decode_setValue : decodeCommand (cmd2 0b100100#6 5 0) = .ok (.setValue .bnr 5) := by decide
theorem test_decode_setSsm : decodeCommand (cmd2 0b000101#6 2 0) = .ok (.setSsm .none 2) := by decide
theorem test_decode_setBit : decodeCommand (cmd2 0b000110#6 2 1) = .ok (.setBit .none 2 1) := by decide
theorem test_decode_getBit : decodeCommand (cmd2 0b000111#6 19 0) = .ok (.getBit .none 19) := by decide
theorem test_decode_getSsm : decodeCommand (cmd2 0b111000#6 0 0) = .ok (.getSsm .bcd) := by decide
theorem test_decode_bcdNew : decodeCommand ⟨0b111001#6, 13, 1, 0x12345, 3⟩ = .ok (.bcdNew 13 1 0x12345 3) := by
  decide
theorem test_decode_getStatusD : decodeCommand (cmd2 0b011010#6 0 0) = .ok .getStatusD := by decide
theorem test_decode_getStatusN : decodeCommand (cmd2 0b101010#6 0 0) = .ok .getStatusN := by decide
theorem test_decode_getStatusB : decodeCommand (cmd2 0b111010#6 0 0) = .ok .getStatusB := by decide
theorem test_decode_setStatusD : decodeCommand (cmd2 0b011011#6 2 0) = .ok (.setStatusD 2) := by decide
theorem test_decode_setStatusN : decodeCommand (cmd2 0b101011#6 0 0) = .ok (.setStatusN 0) := by decide
theorem test_decode_setStatusB : decodeCommand (cmd2 0b111011#6 5 0) = .ok (.setStatusB 5) := by decide
theorem test_decode_table_byte : decodeTableWord 8 0x39 = some (.bcdNew 0 0 0 0) := by decide
theorem test_decode_table_reserved : decodeTableWord 8 0x0C = none := by decide

/-! ### Lines of 95_test_vectors.md as text (V6, V11, V9b, V43, V56, V68, P5) and lines that are none -/

theorem test_line_prefix : assembleLine "B.DECODE 0x12345678" = some (.decode .bcd 0x12345678) := by decide
theorem test_line_binary : assembleLine "SET_SDI 0b111" = some (.setSdi .none 7) := by decide
theorem test_line_ports : assembleLine "BCD_NEW 0x0D, 1, 0x12345, 3" = some (.bcdNew 13 1 0x12345 3) := by decide
theorem test_line_member : assembleLine "SET_STATUS.D FunctionalTest" = some (.setStatusD 2) := by decide
theorem test_line_no_operand : assembleLine "GET_STATUS.B" = some .getStatusB := by decide
theorem test_line_too_many : assembleLine "EMPTY 1" = none := by decide
theorem test_line_inner_blank : assembleLine "SET_LABEL 1 2" = none := by decide
theorem test_line_family_prefix : assembleLine "D.GET_STATUS.B" = none := by decide

/-! ### One step of each command -/

/-- V1. -/
theorem test_empty : after w0 (cmd2 0x00 0 0) = some (0#32, .silent) := by decide
/-- V5: a word with bad parity is held verbatim. -/
theorem test_decode_bad_parity : after w0 (cmd2 0x01 0x118C44B0 0) = some (0x118C44B0#32, .silent) := by decide
/-- V6: the `fam` bits of DECODE are ignored. -/
theorem test_decode_fam_ignored : after w0 (cmd2 0x31 0x12345678 0) = some (0x12345678#32, .silent) := by decide
/-- V7. -/
theorem test_setLabel_truncates : after w0 (cmd2 0x02 0x1B1 0) = some (0x118C44B1#32, .silent) := by decide
/-- V18: the first setter after reset sets the parity bit. -/
theorem test_setLabel_zero : after 0 (cmd2 0x02 0 0) = some (0x80000000#32, .silent) := by decide
/-- V10 and S11. -/
theorem test_setSdi : after w0 (cmd2 0x03 1 0) = some (0x118C45B0#32, .silent) := by decide
/-- V11. -/
theorem test_setSdi_truncates : after w0 (cmd2 0x03 7 0) = some (0x918C47B0#32, .silent) := by decide
/-- V13 and S2. -/
theorem test_setValue : after w0 (cmd2 0x04 0x47F11 0) = some (0x11FC44B0#32, .silent) := by decide
/-- V14: bit 19 of the operand is lost. -/
theorem test_setValue_bit19 : after w0 (cmd2 0x04 0x80000 0) = some (0x000000B0#32, .silent) := by decide
/-- V21 and S9: over-wide, and the parity bit recomputed, not kept (S10 is rejected). -/
theorem test_setSsm : after w0 (cmd2 0x05 6 0) = some (0x518C44B0#32, .silent) := by decide
/-- V24: a setter repairs the parity. -/
theorem test_setSsm_repairs : after 0x118C44B0 (cmd2 0x05 0 0) = some (0x918C44B0#32, .silent) := by decide
/-- V28: the top bit of the value is cleared, the status field untouched. -/
theorem test_setBit_top : after w0 (cmd2 0x06 19 0) = some (0x018C44B0#32, .silent) := by decide
/-- V29b: index 33 does not alias to index 1. -/
theorem test_setBit_33 : after w0 (cmd2 0x06 33 1) = some (w0, .illegal .badBitIndex) := by decide
/-- V34. -/
theorem test_getBit_top : after w0 (cmd2 0x07 19 0) = some (w0, .answer 1#32) := by decide
/-- V36. -/
theorem test_getBit_20 : after w0 (cmd2 0x07 20 0) = some (w0, .illegal .badBitIndex) := by decide
/-- V39. -/
theorem test_getSsm : after 0x518C44B0 (cmd2 0x08 0 0) = some (0x518C44B0#32, .answer 2#32) := by decide
/-- V40. -/
theorem test_bcdNew_truncates : after w0 ⟨0x39, 0xFFFFFFFF, 7, 0xFFFFFFFF, 7⟩ = some (0x7FFFFFFF#32, .silent) := by
  decide
/-- V46: four different operands. -/
theorem test_bcdNew_fields : after w0 ⟨0x39, 0x0D, 1, 0x12345, 3⟩ = some (0x648D150D#32, .silent) := by decide
/-- V53, the word 0xF18C44B0 under the three families. -/
theorem test_getStatusD : after 0xF18C44B0 (cmd2 0x1A 0 0) = some (0xF18C44B0#32, .answer 3#32) := by decide
theorem test_getStatusN : after 0xF18C44B0 (cmd2 0x2A 0 0) = some (0xF18C44B0#32, .answer 0#32) := by decide
theorem test_getStatusB : after 0xF18C44B0 (cmd2 0x3A 0 0) = some (0xF18C44B0#32, .answer 5#32) := by decide
/-- V56. -/
theorem test_setStatusD : after w0 (cmd2 0x1B 2 0) = some (0x518C44B0#32, .silent) := by decide
/-- V62. -/
theorem test_setStatusD_bcd_member : after w0 (cmd2 0x1B 4 0) = some (w0, .illegal .badStatus) := by decide
/-- V58. -/
theorem test_setStatusN : after w0 (cmd2 0x2B 0 0) = some (0xF18C44B0#32, .silent) := by decide
/-- V67. -/
theorem test_setStatusN_8 : after w0 (cmd2 0x2B 8 0) = some (w0, .illegal .badStatus) := by decide
/-- V60. -/
theorem test_setStatusB : after w0 (cmd2 0x3B 5 0) = some (0xF18C44B0#32, .silent) := by decide
/-- V68: the operand is compared whole. -/
theorem test_setStatusB_13 : after w0 (cmd2 0x3B 0xD 0) = some (w0, .illegal .badStatus) := by decide
/-- V47, V55, V69. -/
theorem test_bad_family : ∀ n ∈ [0x09#6, 0x0A#6, 0x0B#6],
    after w0 (cmd2 n 1 2) = some (w0, .illegal .badFamily) := by decide
/-- V70 to V73. -/
theorem test_reserved : ∀ n ∈ [0x0C#6, 0x1D#6, 0x2E#6, 0x3F#6],
    after w0 (cmd2 n 0 0) = some (w0, .illegal .reservedOpcode) := by decide
/-- V74. -/
theorem test_idle : seen (step ⟨w0, .answer 1, [⟨false, false, cmd2 0x02 5 5⟩]⟩) = some (w0, .silent) := by decide
/-- V75: reset discards the command presented with it. -/
theorem test_reset : seen (step ⟨w0, .silent, [⟨true, true, cmd2 0x02 5 5⟩]⟩) = some (0#32, .silent) := by decide
/-- The trace of W0's composite in section 1: fold 15, table entry 0, parity bit 1. -/
theorem test_parity_trace : fold 0x118C44B0 = 15#4 ∧ parityBit 176 0 287505 0 = 1#1 := by decide
/-- An opcode-table word runs in the very next step, from reset. -/
theorem test_withFetchWord : seen (step (State.reset.withFetchWord 8 0x39)) = some (0x80000000#32, .silent) := by
  decide

/-! ### Witnesses: for every statement with hypotheses, data that meet them, at the ends of each range -/

theorem witness_CommandWordsDecodeByTable :
    (0x06#6).toNat &&& 0x0F = 0x06 ∧ (0x36#6).toNat &&& 0x0F = 0x06 ∧ (0x39#6).toNat &&& 0x3F = 0x39 ∧
    (∀ row ∈ [(0x0F, 0x00), (0x0F, 0x01), (0x0F, 0x02), (0x0F, 0x03), (0x0F, 0x04), (0x0F, 0x05), (0x0F, 0x06),
      (0x0F, 0x07), (0x0F, 0x08), (0x3F, 0x39), (0x3F, 0x1A), (0x3F, 0x2A), (0x3F, 0x3A), (0x3F, 0x1B),
      (0x3F, 0x2B), (0x3F, 0x3B)], (0x0C#6).toNat &&& row.1 ≠ row.2 ∧ (0x0B#6).toNat &&& row.1 ≠ row.2) := by
  decide

theorem witness_DecodeEncodeRoundTrip :
    decodeCommand ⟨0x36#6, 19, 3, 8, 9⟩ = .ok (.setBit .bcd 19 3) ∧
    decodeCommand ⟨0x39#6, 1, 2, 3, 4⟩ = .ok (.bcdNew 1 2 3 4) ∧
    decodeCommand ⟨0x1A#6, 1, 2, 3, 4⟩ = .ok .getStatusD := by decide

/-- Two different commands that differ in ignored pins alone: `fam` and `b[31:1]` of SET_BIT; `fam` and the
operands of a reserved word; the ports BCD_NEW's refused words and GET_STATUS do not use. -/
theorem witness_IgnoredPinsHaveNoEffect :
    ∀ p ∈ [((⟨0x06#6, 2, 0xFFFFFFFE, 5, 6⟩, ⟨0x36#6, 2, 4, 0, 0⟩) : Command × Command),
      (⟨0x0C#6, 1, 2, 3, 4⟩, ⟨0x3C#6, 5, 6, 7, 8⟩), (⟨0x1A#6, 1, 2, 3, 4⟩, ⟨0x1A#6, 5, 6, 7, 8⟩),
      (⟨0x3B#6, 5, 2, 3, 4⟩, ⟨0x3B#6, 5, 6, 7, 8⟩), (⟨0x39#6, 1, 2, 3, 4⟩, ⟨0x39#6, 1, 2, 3, 4⟩)],
    p.1.cmd.toNat % 16 = p.2.cmd.toNat % 16 ∧
    (p.1.cmd = p.2.cmd ∨ p.1.cmd.toNat % 16 < 9 ∨ 12 ≤ p.1.cmd.toNat % 16) ∧
    (p.1.cmd.toNat % 16 ∈ [1, 2, 3, 4, 5, 6, 7, 9, 11] → p.1.a = p.2.a) ∧
    (p.1.cmd.toNat % 16 = 6 → p.1.b.getLsbD 0 = p.2.b.getLsbD 0) ∧
    (p.1.cmd.toNat % 16 = 9 → p.1.b = p.2.b ∧ p.1.c = p.2.c ∧ p.1.d = p.2.d) := by decide

theorem witness_StepRunsDecodedCommand :
    (∃ pins rest, (offered w0 (cmd2 0x06 2 1)).inputs = pins :: rest ∧ pins.reset = false ∧
      pins.cmdValid = true ∧ decodeCommand pins.command = .ok (.setBit .none 2 1)) ∧
    decodeTableWord 8 0x06 = some (.setBit .none 0 0) :=
  ⟨⟨present (cmd2 0x06 2 1), [], by decide⟩, by decide⟩

theorem witness_ResetEventClearsWord : ∃ pins rest,
    (⟨w0, .answer 1, [⟨true, true, cmd2 0x02 5 5⟩, idlePins]⟩ : State).inputs = pins :: rest ∧
    pins.reset = true :=
  ⟨⟨true, true, cmd2 0x02 5 5⟩, [idlePins], by decide⟩

theorem witness_IdleStepLeavesWord :
    (∃ pins rest, (⟨w0, .answer 1, [⟨false, false, cmd2 0x02 5 5⟩]⟩ : State).inputs = pins :: rest ∧
      pins.reset = false ∧ pins.cmdValid = false) ∧ (holding w0).inputs = [] :=
  ⟨⟨⟨false, false, cmd2 0x02 5 5⟩, [], by decide⟩, rfl⟩

/-- The command words of the nine family-blind statements (EMPTY to GET_SSM), at `fam` 0 and 3. -/
theorem witness_BaseWordCommandWords : ∀ op ∈ [0, 1, 2, 3, 4, 5, 6, 7, 8],
    BitVec.ofNat 6 op &&& 0x0F#6 = BitVec.ofNat 6 op ∧
    BitVec.ofNat 6 (0x30 + op) &&& 0x0F#6 = BitVec.ofNat 6 op := by decide

/-- The clause of EmptyClearsWord about the first mutator, with one that is accepted. -/
theorem witness_EmptyClearsWord : (Instr.setStatusN 3).mnemonic ∈ ["SET_LABEL", "SET_SDI", "SET_VALUE", "SET_SSM",
      "SET_BIT", "SET_STATUS.D", "SET_STATUS.N", "SET_STATUS.B", "BCD_NEW"] ∧
    (seen (exec (.setStatusN 3) (holding 0))).map (fun p => p.2.ill) = some false := by decide

/-- The bit indices of SetBitWritesOneValueBit and GetBitAnswersOneValueBit, at both ends of each range. -/
theorem witness_BitIndexRanges :
    (1 ≤ (1#32).toNat ∧ (1#32).toNat ≤ 19) ∧ (1 ≤ (19#32).toNat ∧ (19#32).toNat ≤ 19) ∧
    ((0#32).toNat = 0 ∨ 20 ≤ (0#32).toNat) ∧ ((20#32).toNat = 0 ∨ 20 ≤ (20#32).toNat) ∧
    ((0xFFFFFFFF#32).toNat = 0 ∨ 20 ≤ (0xFFFFFFFF#32).toNat) := by decide

theorem witness_BcdNewBuildsWord :
    (⟨0x39#6, 1, 2, 3, 4⟩ : Command).cmd = 0x39#6 ∧
    ((⟨0x29#6, 1, 2, 3, 4⟩ : Command).cmd.toNat % 16 = 9 ∧ (⟨0x29#6, 1, 2, 3, 4⟩ : Command).cmd.toNat / 16 ≠ 3) ∧
    ((⟨0x09#6, 1, 2, 3, 4⟩ : Command).cmd.toNat % 16 = 9 ∧ (⟨0x09#6, 1, 2, 3, 4⟩ : Command).cmd.toNat / 16 ≠ 3) := by
  decide

theorem witness_GetStatusAnswersFamilyCode : (cmd2 0x1A 9 9).cmd = 0x1A#6 ∧ (cmd2 0x2A 9 9).cmd = 0x2A#6 ∧
    (cmd2 0x3A 9 9).cmd = 0x3A#6 := by decide

theorem witness_SetStatusDWritesDiscreteCode :
    (cmd2 0x1B 3 0).cmd = 0x1B#6 ∧ (0#32).toNat ≤ 3 ∧ (3#32).toNat ≤ 3 ∧ 4 ≤ (4#32).toNat ∧
    4 ≤ (0xFFFFFFFF#32).toNat := by decide

theorem witness_SetStatusNWritesBnrCode :
    (cmd2 0x2B 3 0).cmd = 0x2B#6 ∧ (0#32).toNat ≤ 3 ∧ (3#32).toNat ≤ 3 ∧ 4 ≤ (4#32).toNat ∧
    4 ≤ (0xFFFFFFFF#32).toNat := by decide

theorem witness_SetStatusBWritesBcdCode :
    (cmd2 0x3B 3 0).cmd = 0x3B#6 ∧ (1#32).toNat ∈ [1, 2, 4, 5] ∧ (5#32).toNat ∈ [1, 2, 4, 5] ∧
    (0#32).toNat ∉ [1, 2, 4, 5] ∧ (3#32).toNat ∉ [1, 2, 4, 5] ∧ (6#32).toNat ∉ [1, 2, 4, 5] := by decide

/-- Every cause, at the boundary of its row of R69's table, and an accepted command. -/
theorem witness_IllegalCommandExactlyByTable :
    (∃ pins rest, (offered w0 (cmd2 0x0C 0 0)).inputs = pins :: rest ∧ pins.reset = false ∧
      pins.cmdValid = true ∧ illegalCause pins.command = some .reservedOpcode) ∧
    illegalCause (cmd2 0x29 0 0) = some .badFamily ∧ illegalCause (cmd2 0x0B 9 0) = some .badFamily ∧
    illegalCause (cmd2 0x06 20 1) = some .badBitIndex ∧ illegalCause (cmd2 0x37 0 1) = some .badBitIndex ∧
    illegalCause (cmd2 0x1B 4 0) = some .badStatus ∧ illegalCause (cmd2 0x3B 3 0) = some .badStatus ∧
    illegalCause (cmd2 0x06 19 1) = none ∧ illegalCause (cmd2 0x3B 4 0) = none ∧
    (∃ pins rest, (⟨w0, .answer 1, [⟨false, false, cmd2 0x0C 5 5⟩]⟩ : State).inputs = pins :: rest ∧
      pins.reset = false ∧ pins.cmdValid = false) :=
  ⟨⟨present (cmd2 0x0C 0 0), [], by decide⟩, by decide, by decide, by decide, by decide, by decide, by decide,
   by decide, by decide, ⟨⟨false, false, cmd2 0x0C 5 5⟩, [], by decide⟩⟩

theorem witness_WellFormedExactlyAccepted :
    (Instr.setBit .none 20 1).wellFormed = false ∧ (Instr.setBit .none 19 1).wellFormed = true := by decide

theorem witness_RefusalLeavesNoTrace :
    ∃ pins rest, (⟨w0, .silent, [present (cmd2 0x3B 0 0), present (cmd2 0x08 0 0)]⟩ : State).inputs = pins :: rest ∧
      pins.reset = false ∧ pins.cmdValid = true ∧ illegalCause pins.command = some .badStatus :=
  ⟨present (cmd2 0x3B 0 0), [present (cmd2 0x08 0 0)], by decide⟩

/-- The premises of CommandsKeepOtherFields: one command that meets each. -/
theorem witness_CommandsKeepOtherFields :
    (Instr.setSdi .none 3).mnemonic ∉ ["EMPTY", "DECODE", "SET_LABEL", "BCD_NEW"] ∧
    (Instr.setLabel .none 3).mnemonic ∉ ["EMPTY", "DECODE", "SET_SDI", "BCD_NEW"] ∧
    (Instr.setSsm .none 3).mnemonic ∉ ["EMPTY", "DECODE", "SET_VALUE", "SET_BIT", "BCD_NEW"] ∧
    (Instr.setBit .none 19 1).mnemonic ∉
      ["EMPTY", "DECODE", "SET_SSM", "SET_STATUS.D", "SET_STATUS.N", "SET_STATUS.B", "BCD_NEW"] ∧
    (Instr.getSsm .none).mnemonic ∈ ["GET_BIT", "GET_SSM", "GET_STATUS.D", "GET_STATUS.N", "GET_STATUS.B"] ∧
    (seen (exec (.setBit .none 20 1) (holding w0))).map (fun p => p.2.ill) = some true := by decide

/-- The premises of ParityAfterEveryCommand: one command that meets each. -/
theorem witness_ParityAfterEveryCommand :
    ((seen (exec (.setSdi .none 3) (holding 0x118C44B0))).map (fun p => p.2.ill) = some false ∧
      (Instr.setSdi .none 3).mnemonic ∈ ["SET_LABEL", "SET_SDI", "SET_VALUE", "SET_SSM", "SET_BIT",
        "SET_STATUS.D", "SET_STATUS.N", "SET_STATUS.B", "BCD_NEW"]) ∧
    (Instr.empty .none).mnemonic = "EMPTY" ∧ Instr.decode .none 7 = .decode .none 7 ∧
    Instr.getStatusB.mnemonic ∈ ["GET_BIT", "GET_SSM", "GET_STATUS.D", "GET_STATUS.N", "GET_STATUS.B"] ∧
    (seen (exec (.setStatusB 0) (holding w0))).map (fun p => p.2.ill) = some true := by decide

theorem witness_StepReadsOnlyWordAndInputs :
    let s : State := ⟨w0, .answer 1, [idlePins]⟩
    let t : State := ⟨w0, .illegal .badStatus, [idlePins]⟩
    s ≠ t ∧ s.w = t.w ∧ s.inputs = t.inputs := by decide

theorem witness_ContractKeptNeverRefused :
    ∀ pins ∈ (⟨w0, .silent, [present (cmd2 0x06 1 1), present (cmd2 0x06 19 0), present (cmd2 0x3B 5 0),
        idlePins]⟩ : State).inputs,
      pins.reset = false → pins.cmdValid = true → illegalCause pins.command = none := by decide

/-- Bit indices at both ends, a member of each family, a reset and an idle port: all inside the contract. -/
theorem witness_StepKeepsContractRun :
    ContractRun ⟨w0, .silent, [present (cmd2 0x06 1 1), present (cmd2 0x07 19 0), present (cmd2 0x1B 3 0),
      present (cmd2 0x3B 4 0), ⟨true, true, cmd2 0x0C 0 0⟩, idlePins]⟩ := by
  unfold ContractRun insideContract; decide

/-- Well-formed instructions at the ends of their ranges, and a command inside the contract and one outside. -/
theorem witness_WellFormedCommandsKeepContract :
    (∀ i ∈ [Instr.setBit .none 1 0, .getBit .bcd 19, .setStatusN 3, .setStatusB 5], i.wellFormed = true) ∧
    decodeCommand ⟨0x06#6, 19, 1, 7, 8⟩ = .ok (.setBit .none 19 1) ∧
    decodeCommand ⟨0x06#6, 20, 1, 7, 8⟩ = .ok (.setBit .none 20 1) := by decide

/-- From the empty word and from a parity-valid one, with commands to come that load good words. -/
theorem witness_StepKeepsGoodWordRun :
    GoodWordRun ⟨0, .silent, [present (cmd2 0x01 w0 0), present (cmd2 0x31 0 0), present (cmd2 0x02 7 0)]⟩ ∧
    GoodWordRun ⟨w0, .silent, [present (cmd2 0x01 w0 0), present (cmd2 0x02 7 0)]⟩ ∧
    ∃ t, step ⟨w0, .silent, [present (cmd2 0x01 w0 0), present (cmd2 0x02 7 0)]⟩ = .next t :=
  ⟨by unfold GoodWordRun loadsGoodWord emptyOrValid; decide,
   by unfold GoodWordRun loadsGoodWord emptyOrValid; decide,
   ⟨w0, .silent, [present (cmd2 0x02 7 0)]⟩, rfl⟩

theorem witness_ResetIsGoodWordRun : ∀ pins ∈ [present (cmd2 0x01 w0 0), present (cmd2 0x39 1 2)],
    loadsGoodWord pins := by unfold loadsGoodWord emptyOrValid; decide

theorem witness_StepKeepsPublishableRun :
    PublishableRun ⟨w0, .silent, [present (cmd2 0x01 w0 0), present (cmd2 0x02 7 0), idlePins]⟩ ∧
    ∃ t, step ⟨w0, .silent, [present (cmd2 0x01 w0 0), present (cmd2 0x02 7 0), idlePins]⟩ = .next t :=
  ⟨by unfold PublishableRun publishable keepsParity; decide,
   ⟨w0, .silent, [present (cmd2 0x02 7 0), idlePins]⟩, rfl⟩

theorem witness_RecombinedWordAsInteger : parityBit 176 0 287505 0 = 1#1 ∧ parityBit 176 0 294673 0 ≠ 1#1 := by
  decide

/-- A member and its code in each family (R92's table). -/
theorem witness_StatusTablesInverse : statusCode .discrete .failureWarning = some 3#2 ∧
    statusCode .bnr .failureWarning = some 0#2 ∧ statusCode .bcd .plusNorthEastRightToAbove = some 0#2 := by decide

theorem witness_SettersCommute : (1#32 : Word) ≠ 19#32 ∧ 1 ≤ (1#32).toNat ∧ (1#32).toNat ≤ 19 ∧
    1 ≤ (19#32).toNat ∧ (19#32).toNat ≤ 19 ∧
    Instr.setSsm .bcd 2 ∈ [Instr.setLabel .none 1, .setSdi .bnr 7, .setSsm .bcd 2] ∧
    Instr.setValue .none 9 ∈ [Instr.setLabel .none 1, .setSdi .bnr 7, .setValue .none 9] ∧
    statusCode .discrete .failureWarning = some 3#2 ∧ statusCode .bnr .failureWarning = some 0#2 ∧
    statusCode .bcd .minusSouthWestLeftFromBelow = some 3#2 := by decide

/-- W0 with its value's lowest and highest bit, both 1, and a bit that is 0. -/
theorem witness_SetterRepairsParity :
    (1 ≤ (1#32).toNat ∧ (1#32).toNat ≤ 19 ∧ (1#32).getLsbD 0 = w0.getLsbD (9 + (1#32).toNat)) ∧
    (1 ≤ (19#32).toNat ∧ (19#32).toNat ≤ 19 ∧ (1#32).getLsbD 0 = w0.getLsbD (9 + (19#32).toNat)) ∧
    (1 ≤ (2#32).toNat ∧ (2#32).toNat ≤ 19 ∧ (0#32).getLsbD 0 = w0.getLsbD (9 + (2#32).toNat)) := by decide

theorem witness_BcdNewEqualsFourSetters :
    [Instr.setSsm .none 4, .setValue .none 3, .setSdi .none 2, .setLabel .none 1].Perm
      [.setLabel .none 1, .setSdi .none 2, .setValue .none 3, .setSsm .none 4] := by decide

/-- Setting bit 2 and bit 18 of W0's value, clearing bit 1 and bit 19, and writing bit 1 as it is. -/
theorem witness_SetBitAddsOrSubtractsWeight :
    (w0.getLsbD (9 + (2#32).toNat) = false ∧ (1#32).getLsbD 0 = true) ∧
    ((0#32).getLsbD (9 + (19#32).toNat) = false ∧ (1#32).getLsbD 0 = true) ∧
    (w0.getLsbD (9 + (1#32).toNat) = true ∧ (0#32).getLsbD 0 = false) ∧
    (w0.getLsbD (9 + (19#32).toNat) = true ∧ (0#32).getLsbD 0 = false) ∧
    w0.getLsbD (9 + (1#32).toNat) = (1#32).getLsbD 0 := by decide

theorem witness_StatusReinterpretation : statusCode .discrete .failureWarning = some 3#2 ∧
    statusCode .bnr .normalOperation = some 3#2 ∧ statusCode .bcd .minusSouthWestLeftFromBelow = some 3#2 := by
  decide

end Sys2Proof.Tests
end

section
/-! PROOFS. The recombined word read back: its fields, its bits and its parity (spec/10_state.md R22 to R25). -/

namespace Sys2Proof.Machine

/-- The four writable fields of a recombined word, whatever parity bit it was given. -/
@[simp] theorem labelOf_recombine (l : Label) (x : Sdi) (v : Value) (m : Ssm) (p : Bit) :
    labelOf (recombine l x v m p) = l := by
  refine BitVec.eq_of_getLsbD_eq fun i hi => ?_
  rw [labelOf_getLsbD, recombine_getLsbD, composite_getLsbD, if_neg (by omega), if_pos hi]
  simp [hi]

@[simp] theorem sdiOf_recombine (l : Label) (x : Sdi) (v : Value) (m : Ssm) (p : Bit) :
    sdiOf (recombine l x v m p) = x := by
  refine BitVec.eq_of_getLsbD_eq fun i hi => ?_
  rw [sdiOf_getLsbD, recombine_getLsbD, composite_getLsbD, if_neg (by omega), if_neg (by omega),
    if_pos (by omega)]
  simp [hi]

@[simp] theorem valueOf_recombine (l : Label) (x : Sdi) (v : Value) (m : Ssm) (p : Bit) :
    valueOf (recombine l x v m p) = v := by
  refine BitVec.eq_of_getLsbD_eq fun i hi => ?_
  rw [valueOf_getLsbD, recombine_getLsbD, composite_getLsbD, if_neg (by omega), if_neg (by omega),
    if_neg (by omega), if_pos (by omega)]
  simp [hi]

@[simp] theorem ssmOf_recombine (l : Label) (x : Sdi) (v : Value) (m : Ssm) (p : Bit) :
    ssmOf (recombine l x v m p) = m := by
  refine BitVec.eq_of_getLsbD_eq fun i hi => ?_
  rw [ssmOf_getLsbD, recombine_getLsbD, composite_getLsbD, if_neg (by omega), if_neg (by omega),
    if_neg (by omega), if_neg (by omega)]
  simp [hi]

/-- A word is its own five fields put together again. -/
theorem recombine_fields (r : Word) :
    recombine (labelOf r) (sdiOf r) (valueOf r) (ssmOf r) (parityOf r) = r := by
  refine BitVec.eq_of_getLsbD_eq fun i hi => ?_
  rw [recombine_getLsbD, composite_getLsbD, parityOf_getLsbD, labelOf_getLsbD, sdiOf_getLsbD, valueOf_getLsbD,
    ssmOf_getLsbD]
  split_ifs with h31 h8 h10 h29
  · simp [h31]
  · simp [h8]
  · simp [show i - 8 < 2 by omega, show 8 + (i - 8) = i by omega]
  · simp [show i - 10 < 19 by omega, show 10 + (i - 10) = i by omega]
  · simp [show i - 29 < 2 by omega, show 29 + (i - 29) = i by omega]

/-- Two vectors that agree in the bits numbered have the same XOR of them. -/
theorem xorBits_congr {n k : Nat} {v : BitVec n} {u : BitVec k} {is : List Nat}
    (h : ∀ i ∈ is, v.getLsbD i = u.getLsbD i) : xorBits v is = xorBits u is := by
  induction is with
  | nil => rfl
  | cons i is ih =>
    exact congrArg₂ Bool.xor (h i (by simp)) (ih fun j hj => h j (by simp [hj]))

/-- The XOR of the 32 bits of a word: the 31 below the parity bit, and the parity bit. -/
theorem xorBits_range_32 (r : Word) :
    xorBits r (List.range 32) = (xorBits r (List.range 31) ^^ r.getLsbD 31) := by
  rw [show List.range 32 = List.range 31 ++ [31] from List.range_succ, xorBits_append]
  simp [xorBits]

/-- The parity law (R88): a word recombined with its computed parity bit has odd parity. -/
theorem parityOK_recombine_parityBit (l : Label) (x : Sdi) (v : Value) (m : Ssm) :
    parityOK (recombine l x v m (parityBit l x v m)) = true := by
  have hlow : ∀ p, xorBits (recombine l x v m p) (List.range 31) = xorBits (composite l x v m) (List.range 31) :=
    fun p => xorBits_congr fun i hi => commit_word_getLsbD l x v m p i (List.mem_range.1 hi)
  have htop : (composite l x v m).getLsbD 31 = false := by
    rw [composite_getLsbD]; exact m.getLsbD_of_ge 2 (by decide)
  rw [parityOK_eq_xorBits, xorBits_range_32, hlow, recombine_getLsbD, if_pos rfl, parityBit_getLsbD,
    xorBits_range_32, htop]
  simp

/-- The zero word has even parity. -/
theorem parityOK_zero : parityOK 0#32 = false := by decide

end Sys2Proof.Machine
end

section
/-! PROOFS. What a command can do to the word, said once for all sixteen: clear it, load it, commit a new one
that keeps the fields the command does not name, answer, or be refused (spec/10_state.md R23 to R25). -/

namespace Sys2Proof.Machine

/-- The five mnemonics that only read the word. -/
def getMnemonics : List String := ["GET_BIT", "GET_SSM", "GET_STATUS.D", "GET_STATUS.N", "GET_STATUS.B"]

/-- The nine mnemonics that commit a word with its computed parity bit. -/
def commitMnemonics : List String :=
  ["SET_LABEL", "SET_SDI", "SET_VALUE", "SET_SSM", "SET_BIT", "SET_STATUS.D", "SET_STATUS.N", "SET_STATUS.B",
    "BCD_NEW"]

/-- No command both reads and commits. -/
theorem not_mem_commitMnemonics : ∀ name ∈ getMnemonics, name ∉ commitMnemonics := by decide

/-- A command that reads or commits is neither EMPTY nor DECODE. -/
theorem ne_empty_and_ne_decode {i : Instr} (h : i.mnemonic ∈ getMnemonics ++ commitMnemonics) :
    i.mnemonic ≠ "EMPTY" ∧ ∀ f raw, i ≠ .decode f raw := by
  have hnames : ∀ name ∈ getMnemonics ++ commitMnemonics, name ≠ "EMPTY" ∧ name ≠ "DECODE" := by decide
  obtain ⟨hempty, hdecode⟩ := hnames _ h
  exact ⟨hempty, fun f raw hi => hdecode (hi ▸ rfl)⟩

/-- A command with this mnemonic that commits these fields over the word `w` keeps each field it does not
name. -/
def KeepsUnnamedFields (name : String) (w : Word) (l : Label) (x : Sdi) (v : Value) (m : Ssm) : Prop :=
  (name ∈ ["SET_LABEL", "BCD_NEW"] ∨ l = labelOf w) ∧
  (name ∈ ["SET_SDI", "BCD_NEW"] ∨ x = sdiOf w) ∧
  (name ∈ ["SET_VALUE", "SET_BIT", "BCD_NEW"] ∨ v = valueOf w) ∧
  (name ∈ ["SET_SSM", "SET_STATUS.D", "SET_STATUS.N", "SET_STATUS.B", "BCD_NEW"] ∨ m = ssmOf w)

/-- What a command does to the word it finds. -/
inductive WordEffect (w : Word) : Instr → Word × Response → Prop where
  | clears (f : FamilyCode) : WordEffect w (.empty f) (0#32, .silent)
  | loads (f : FamilyCode) (raw : Word) : WordEffect w (.decode f raw) (raw, .silent)
  | commits {i : Instr} {l : Label} {x : Sdi} {v : Value} {m : Ssm} (hname : i.mnemonic ∈ commitMnemonics)
      (hkeep : KeepsUnnamedFields i.mnemonic w l x v m) : WordEffect w i (committed l x v m)
  | answers {i : Instr} (hname : i.mnemonic ∈ getMnemonics) (r : Word) : WordEffect w i (w, .answer r)
  | refuses {i : Instr} (hname : i.mnemonic ∈ getMnemonics ++ commitMnemonics) (c : IllegalCause) :
      WordEffect w i (w, .illegal c)

/-- SET_STATUS of any family commits the member's code or is refused. -/
theorem statusEffect_wordEffect (fam : Family) (a w : Word) {i : Instr}
    (hname : i.mnemonic ∈ ["SET_STATUS.D", "SET_STATUS.N", "SET_STATUS.B"]) :
    WordEffect w i (statusEffect fam a w) := by
  have hcommit : ∀ name ∈ ["SET_STATUS.D", "SET_STATUS.N", "SET_STATUS.B"], name ∈ commitMnemonics := by decide
  unfold statusEffect
  cases statusOperand fam a with
  | none => exact .refuses (List.mem_append_right _ (hcommit _ hname)) _
  | some m =>
    exact .commits (hcommit _ hname)
      ⟨.inr rfl, .inr rfl, .inr rfl, .inl (.tail _ (List.mem_append_left ["BCD_NEW"] hname))⟩

/-- Every command has one of the five effects. -/
theorem effectOf_wordEffect (i : Instr) (w : Word) : WordEffect w i (effectOf i w) := by
  cases i with
  | empty f => exact .clears f
  | decode f raw => exact .loads f raw
  | setLabel f l =>
    rw [effectOf_setLabel]
    exact .commits (by simp [Instr.mnemonic, commitMnemonics]) (by simp [KeepsUnnamedFields, Instr.mnemonic])
  | setSdi f x =>
    rw [effectOf_setSdi]
    exact .commits (by simp [Instr.mnemonic, commitMnemonics]) (by simp [KeepsUnnamedFields, Instr.mnemonic])
  | setValue f v =>
    rw [effectOf_setValue]
    exact .commits (by simp [Instr.mnemonic, commitMnemonics]) (by simp [KeepsUnnamedFields, Instr.mnemonic])
  | setSsm f x =>
    rw [effectOf_setSsm]
    exact .commits (by simp [Instr.mnemonic, commitMnemonics]) (by simp [KeepsUnnamedFields, Instr.mnemonic])
  | setBit f index on =>
    rw [effectOf_setBit]
    cases bitIndex index with
    | none => exact .refuses (by simp [Instr.mnemonic, commitMnemonics]) _
    | some k =>
      exact .commits (by simp [Instr.mnemonic, commitMnemonics])
        (by simp [KeepsUnnamedFields, Instr.mnemonic])
  | getBit f index =>
    rw [effectOf_getBit]
    cases bitIndex index with
    | none => exact .refuses (by simp [Instr.mnemonic, getMnemonics]) _
    | some k => exact .answers (by simp [Instr.mnemonic, getMnemonics]) _
  | getSsm f => exact .answers (by simp [Instr.mnemonic, getMnemonics]) _
  | bcdNew l x v m =>
    rw [effectOf_bcdNew]
    exact .commits (by simp [Instr.mnemonic, commitMnemonics]) (by simp [KeepsUnnamedFields, Instr.mnemonic])
  | getStatusD => exact .answers (by simp [Instr.mnemonic, getMnemonics]) _
  | getStatusN => exact .answers (by simp [Instr.mnemonic, getMnemonics]) _
  | getStatusB => exact .answers (by simp [Instr.mnemonic, getMnemonics]) _
  | setStatusD a => rw [effectOf_setStatusD]; exact statusEffect_wordEffect _ _ _ (by simp [Instr.mnemonic])
  | setStatusN a => rw [effectOf_setStatusN]; exact statusEffect_wordEffect _ _ _ (by simp [Instr.mnemonic])
  | setStatusB a => rw [effectOf_setStatusB]; exact statusEffect_wordEffect _ _ _ (by simp [Instr.mnemonic])

/-- The next state a command answers: its effect on the word and the response, the inputs untouched. -/
theorem exec_next {i : Instr} {s t : State} (h : exec i s = .next t) :
    t.w = (effectOf i s.w).1 ∧ t.response = (effectOf i s.w).2 ∧ t.inputs = s.inputs := by
  rw [exec_eq] at h; cases h; exact ⟨rfl, rfl, rfl⟩

end Sys2Proof.Machine
end

section
/-! PROOFS. No command reads the old parity bit (spec/10_state.md R24). -/

namespace Sys2Proof.Machine

/-- Two words with the same label, sdi, value and ssm. -/
def SameFields (w u : Word) : Prop :=
  labelOf w = labelOf u ∧ sdiOf w = sdiOf u ∧ valueOf w = valueOf u ∧ ssmOf w = ssmOf u

/-- Words that agree below bit 31 have the same fields. -/
theorem sameFields_of_getLsbD {w u : Word} (h : ∀ j < 31, w.getLsbD j = u.getLsbD j) : SameFields w u := by
  refine ⟨?_, ?_, ?_, ?_⟩ <;> refine BitVec.eq_of_getLsbD_eq fun i hi => ?_
  · rw [labelOf_getLsbD, labelOf_getLsbD, h i (by omega)]
  · rw [sdiOf_getLsbD, sdiOf_getLsbD, h (8 + i) (by omega)]
  · rw [valueOf_getLsbD, valueOf_getLsbD, h (10 + i) (by omega)]
  · rw [ssmOf_getLsbD, ssmOf_getLsbD, h (29 + i) (by omega)]

/-- Inverting the parity bit touches no bit below it. -/
theorem xor_parityBit_getLsbD (w : Word) {j : Nat} (hj : j < 31) :
    (w ^^^ 0x80000000#32).getLsbD j = w.getLsbD j := by
  rw [BitVec.getLsbD_xor, show 0x80000000#32 = BitVec.twoPow 32 31 from rfl, BitVec.getLsbD_twoPow]
  simp [show 31 ≠ j by omega]

/-- Over two words with the same fields a command does the same, or gives the same response and keeps each
word. -/
def AgreesOn (w u : Word) (e f : Word × Response) : Prop :=
  e = f ∨ (e.2 = f.2 ∧ e.1 = w ∧ f.1 = u)

/-- SET_STATUS of any family reads the fields alone. -/
theorem statusEffect_agreesOn (fam : Family) (a : Word) {w u : Word} (h : SameFields w u) :
    AgreesOn w u (statusEffect fam a w) (statusEffect fam a u) := by
  obtain ⟨hl, hx, hv, -⟩ := h
  unfold statusEffect
  cases statusOperand fam a with
  | none => exact .inr ⟨rfl, rfl, rfl⟩
  | some m => exact .inl (by simp only [hl, hx, hv])

/-- Every command reads the fields alone. -/
theorem effectOf_agreesOn (i : Instr) {w u : Word} (h : SameFields w u) :
    AgreesOn w u (effectOf i w) (effectOf i u) := by
  obtain ⟨hl, hx, hv, hm⟩ := id h
  cases i with
  | empty f => exact .inl rfl
  | decode f raw => exact .inl rfl
  | setLabel f l => exact .inl (by simp only [effectOf_setLabel, hx, hv, hm])
  | setSdi f x => exact .inl (by simp only [effectOf_setSdi, hl, hv, hm])
  | setValue f v => exact .inl (by simp only [effectOf_setValue, hl, hx, hm])
  | setSsm f x => exact .inl (by simp only [effectOf_setSsm, hl, hx, hv])
  | setBit f index on =>
    rw [effectOf_setBit, effectOf_setBit]
    cases bitIndex index with
    | none => exact .inr ⟨rfl, rfl, rfl⟩
    | some k => exact .inl (by simp only [hl, hx, hv, hm])
  | getBit f index =>
    rw [effectOf_getBit, effectOf_getBit]
    cases bitIndex index with
    | none => exact .inr ⟨rfl, rfl, rfl⟩
    | some k => exact .inr ⟨by simp only [hv], rfl, rfl⟩
  | getSsm f => exact .inr ⟨by simp only [effectOf_getSsm, hm], rfl, rfl⟩
  | bcdNew l x v m => exact .inl rfl
  | getStatusD => exact .inr ⟨by simp only [effectOf_getStatusD, hm], rfl, rfl⟩
  | getStatusN => exact .inr ⟨by simp only [effectOf_getStatusN, hm], rfl, rfl⟩
  | getStatusB => exact .inr ⟨by simp only [effectOf_getStatusB, hm], rfl, rfl⟩
  | setStatusD a => rw [effectOf_setStatusD, effectOf_setStatusD]; exact statusEffect_agreesOn _ _ h
  | setStatusN a => rw [effectOf_setStatusN, effectOf_setStatusN]; exact statusEffect_agreesOn _ _ h
  | setStatusB a => rw [effectOf_setStatusB, effectOf_setStatusB]; exact statusEffect_agreesOn _ _ h

end Sys2Proof.Machine
end

section
/-! PROOFS. What a step can do to the word and to the inputs, by what the host presents in it
(spec/30_encoding.md R62, spec/70_reset_and_hazards.md R160). -/

namespace Sys2Proof.Machine

/-- Only the reset pin asks for the reset event. -/
theorem reset_of_eventOf_reset {pins : PortInput} (h : eventOf pins = .reset) : pins.reset = true := by
  unfold eventOf at h; split_ifs at h with hr; exact hr

/-- A command event is the command presented, valid and without reset. -/
theorem pins_of_eventOf_command {pins : PortInput} {c : Command} (h : eventOf pins = .command c) :
    pins.reset = false ∧ pins.cmdValid = true ∧ pins.command = c := by
  unfold eventOf at h
  split_ifs at h with hr hc
  exact ⟨by simpa using hr, hc, by simpa using h⟩

/-- In a step that is not idle the pins are the oldest of the inputs. -/
theorem takeInput_pins_mem {s : State} (h : eventOf (takeInput s).1 ≠ .idle) : (takeInput s).1 ∈ s.inputs := by
  rw [takeInput_pins] at h ⊢
  cases hs : s.inputs with
  | nil => rw [hs] at h; exact absurd rfl h
  | cons pins rest => simp

/-- What decodes to EMPTY has operation number 0. -/
theorem op_of_decode_empty {c : Command} {f : FamilyCode} (h : decodeCommand c = .ok (.empty f)) :
    c.cmd.toNat % 16 = 0 := by
  rcases decodeCommand_cases c with ⟨hop, -⟩ | hc
  · exact hop
  · simp [h] at hc

/-- What decodes to DECODE has operation number 1, and its operand is port `a`. -/
theorem op_of_decode_decode {c : Command} {f : FamilyCode} {raw : Word}
    (h : decodeCommand c = .ok (.decode f raw)) : c.cmd.toNat % 16 = 1 ∧ c.a = raw := by
  rcases decodeCommand_cases c with hc | ⟨hop, hd⟩ | hc
  · simp [h] at hc
  · rw [h] at hd; cases hd; exact ⟨hop, rfl⟩
  · simp [h] at hc

/-- The pins present a command with this operation number, and no reset. -/
def presentsOp (op : Nat) (pins : PortInput) : Prop :=
  pins.reset = false ∧ pins.cmdValid = true ∧ pins.command.cmd.toNat % 16 = op

/-- A step takes one input and adds none. -/
theorem step_inputs {s t : State} (h : step s = .next t) : t.inputs = s.inputs.drop 1 := by
  rw [← takeInput_inputs]
  rcases step_cases s with ⟨-, hs⟩ | ⟨-, hs⟩ | ⟨c, i, -, -, hs⟩ | ⟨c, e, -, -, hs⟩ <;> rw [hs] at h
  · exact (writeSilently_next h).2.2
  · exact (idleEvent_next h).2.2
  · exact (exec_next h).2.2
  · exact (raiseIllegal_next h).2.2

/-- The word after a step: kept, committed with odd parity, cleared by reset or EMPTY, or loaded by DECODE. -/
theorem step_word_cases {s t : State} (h : step s = .next t) :
    t.w = s.w ∨ parityOK t.w = true ∨
    (t.w = 0#32 ∧ ∃ pins ∈ s.inputs, pins.reset = true ∨ presentsOp 0 pins) ∨
    (∃ pins ∈ s.inputs, presentsOp 1 pins ∧ t.w = pins.command.a) := by
  rcases step_cases s with ⟨he, hs⟩ | ⟨-, hs⟩ | ⟨c, i, he, hd, hs⟩ | ⟨c, e, -, -, hs⟩ <;> rw [hs] at h
  · have hmem := takeInput_pins_mem (s := s) (by rw [he]; nofun)
    exact .inr (.inr (.inl ⟨(writeSilently_next h).1, _, hmem, .inl (reset_of_eventOf_reset he)⟩))
  · exact .inl ((idleEvent_next h).1.trans (takeInput_w s))
  · have hmem := takeInput_pins_mem (s := s) (by rw [he]; nofun)
    obtain ⟨hreset, hvalid, rfl⟩ := pins_of_eventOf_command he
    obtain ⟨hw, -, -⟩ := exec_next h
    rw [takeInput_w] at hw
    have heff := effectOf_wordEffect i s.w
    generalize effectOf i s.w = e at heff hw
    cases heff with
    | clears f => exact .inr (.inr (.inl ⟨hw, _, hmem, .inr ⟨hreset, hvalid, op_of_decode_empty hd⟩⟩))
    | loads f raw =>
      obtain ⟨hop, ha⟩ := op_of_decode_decode hd
      exact .inr (.inr (.inr ⟨_, hmem, ⟨hreset, hvalid, hop⟩, hw.trans ha.symm⟩))
    | commits => exact .inr (.inl (hw ▸ parityOK_recombine_parityBit ..))
    | answers => exact .inl hw
    | refuses => exact .inl hw
  · exact .inl ((raiseIllegal_next h).1.trans (takeInput_w s))

/-- What holds of every input to come still does after a step. -/
theorem step_keeps_inputs {s t : State} (h : step s = .next t) {P : PortInput → Prop}
    (hP : ∀ pins ∈ s.inputs, P pins) : ∀ pins ∈ t.inputs, P pins :=
  fun pins hmem => hP pins (List.mem_of_mem_drop (step_inputs h ▸ hmem))

/-- Taking the input commutes with showing a response. -/
theorem takeInput_give (s : State) (r : Response) :
    takeInput (s.give r) = ((takeInput s).1, (takeInput s).2.give r) := by
  obtain ⟨w, q, inputs⟩ := s
  cases inputs <;> rfl

/-- No command reads the response shown before it. -/
theorem exec_give (i : Instr) (s : State) (r : Response) : exec i (s.give r) = exec i s := by
  rw [exec_eq, exec_eq]; rfl

/-- No step reads the response shown before it. -/
theorem step_give (s : State) (r : Response) : step (s.give r) = step s := by
  unfold step
  rw [takeInput_give]
  cases eventOf (takeInput s).1 with
  | reset => rfl
  | idle => rfl
  | command c =>
    dsimp only
    cases decodeCommand c with
    | ok i => exact exec_give i _ r
    | error e => rfl

end Sys2Proof.Machine
end

section
/-! PROOFS. The statements about the state (spec/10_state.md). -/

namespace Sys2Proof.Proofs

open Sys2Proof.Machine Sys2Proof.Safety

/-- Settles O33: a step keeps the word, commits one with odd parity, clears it, or loads an operand that is
good by assumption. -/
theorem stepKeepsGoodWordRun : Obligations.StepKeepsGoodWordRun := by
  rintro s t ⟨hw, hin⟩ h
  refine ⟨?_, step_keeps_inputs h hin⟩
  obtain hkept | hodd | ⟨hzero, -⟩ | ⟨pins, hmem, ⟨hreset, hvalid, hop⟩, hload⟩ := step_word_cases h
  · exact hkept ▸ hw
  · exact .inr hodd
  · exact .inl hzero
  · exact hload ▸ hin pins hmem hreset hvalid hop

/-- Settles O35: of what a step can do to the word, the clearing is shut out by the inputs, and the rest keeps
or restores odd parity. -/
theorem stepKeepsPublishableRun : Obligations.StepKeepsPublishableRun := by
  rintro s t ⟨hw, hin⟩ h
  refine ⟨?_, step_keeps_inputs h hin⟩
  unfold publishable at hw ⊢
  obtain hkept | hodd | ⟨-, pins, hmem, hclear⟩ | ⟨pins, hmem, ⟨-, hvalid, hop⟩, hload⟩ := step_word_cases h
  · rw [hkept, hw]
  · exact hodd
  · obtain ⟨hnoreset, hcmd⟩ := hin pins hmem
    obtain hreset | ⟨-, hvalid, hop⟩ := hclear
    · simp [hnoreset] at hreset
    · exact absurd hop (hcmd hvalid).1
  · rw [hload, ((hin pins hmem).2 hvalid).2 hop]

/-- Settles O26, effect by effect: a committed word shows the fields committed. -/
theorem commandsKeepOtherFields : Obligations.CommandsKeepOtherFields := by
  intro i s
  refine ⟨_, exec_eq i s, rfl, ?_⟩
  have heff := effectOf_wordEffect i s.w
  generalize effectOf i s.w = e at heff
  cases heff with
  | clears f => simp [Instr.mnemonic, Response.ill]
  | loads f raw => simp [Instr.mnemonic, Response.ill]
  | commits hname hkeep =>
    obtain ⟨hl, hx, hv, hm⟩ := hkeep
    simp only [committed, labelOf_recombine, sdiOf_recombine, valueOf_recombine, ssmOf_recombine]
    exact ⟨fun hout => hl.resolve_left fun hin => hout (.tail _ (.tail _ hin)),
      fun hout => hx.resolve_left fun hin => hout (.tail _ (.tail _ hin)),
      fun hout => hv.resolve_left fun hin => hout (.tail _ (.tail _ hin)),
      fun hout => hm.resolve_left fun hin => hout (.tail _ (.tail _ hin)),
      fun hget => absurd hname (not_mem_commitMnemonics _ hget), nofun⟩
  | answers hname r => simp
  | refuses hname c => simp

/-- Settles O27: inverting bit 31 leaves the fields, and a command reads nothing else. -/
theorem parityBitNeverRead : Obligations.ParityBitNeverRead := by
  intro i s
  refine ⟨_, _, exec_eq i s, exec_eq i _, ?_⟩
  have hbits : ∀ j < 31, s.w.getLsbD j = (s.w ^^^ 0x80000000#32).getLsbD j :=
    fun j hj => (xor_parityBit_getLsbD s.w hj).symm
  obtain heq | ⟨hresp, hw, hu⟩ := effectOf_agreesOn i (sameFields_of_getLsbD hbits)
  · exact ⟨congrArg Prod.snd heq, rfl, fun j _ => by rw [heq], .inl (congrArg Prod.fst heq)⟩
  · exact ⟨hresp, rfl, fun j hj => by rw [hw, hu]; exact hbits j hj, .inr ⟨hw, hu⟩⟩

/-- Settles O28, effect by effect: a committed word has odd parity, the zero word has not. -/
theorem parityAfterEveryCommand : Obligations.ParityAfterEveryCommand := by
  refine ⟨fun r => by simp [parityOK], parityOK_zero, fun i s => ⟨_, exec_eq i s, ?_⟩⟩
  have heff := effectOf_wordEffect i s.w
  generalize effectOf i s.w = e at heff
  cases heff with
  | clears f => simp [Instr.mnemonic, Response.ill, parityOK_zero]
  | loads f raw => simp [Instr.mnemonic, Response.ill]
  | commits hname hkeep =>
    obtain ⟨hempty, hdecode⟩ := ne_empty_and_ne_decode (List.mem_append_right _ hname)
    exact ⟨fun _ _ => parityOK_recombine_parityBit .., fun he => absurd he hempty,
      fun f raw hd => absurd hd (hdecode f raw),
      fun hget => absurd hname (not_mem_commitMnemonics _ hget), nofun⟩
  | answers hname r =>
    obtain ⟨hempty, hdecode⟩ := ne_empty_and_ne_decode (List.mem_append_left _ hname)
    exact ⟨fun _ hcommit => absurd hcommit (not_mem_commitMnemonics _ hname), fun he => absurd he hempty,
      fun f raw hd => absurd hd (hdecode f raw), fun _ => rfl, fun _ => rfl⟩
  | refuses hname c =>
    obtain ⟨hempty, hdecode⟩ := ne_empty_and_ne_decode hname
    exact ⟨nofun, fun he => absurd he hempty,
      fun f raw hd => absurd hd (hdecode f raw), fun _ => rfl, fun _ => rfl⟩

/-- Settles O38: a word is its own fields recombined. -/
theorem wordDecomposesIntoFields : Obligations.WordDecomposesIntoFields :=
  fun s => (recombine_fields s.w).symm

/-- Settles O29: states that agree in the word and the inputs differ in the response shown, which no step
reads. -/
theorem stepReadsOnlyWordAndInputs : Obligations.StepReadsOnlyWordAndInputs := by
  intro s t hw hin
  have ht : t = s.give t.response := by
    obtain ⟨w, r, inputs⟩ := t
    simp only at hw hin
    rw [← hw, ← hin]; rfl
  rw [ht, step_give]

/-- Settles O34: the word after reset is the empty word. -/
theorem resetIsGoodWordRun : Obligations.ResetIsGoodWordRun :=
  ⟨⟨.inl rfl, by simp⟩, fun _ hin => ⟨.inl rfl, hin⟩⟩

end Sys2Proof.Proofs
end

section
/-! PROOFS. A command's effect on the word it has just left (spec/20_memory.md R47). -/

namespace Sys2Proof.Machine

/-- Writing a value bit once more changes nothing. -/
@[simp] theorem withValueBit_withValueBit_same (v : Value) (k : Nat) (on : Bool) :
    withValueBit (withValueBit v k on) k on = withValueBit v k on := by
  cases on with
  | true => simp [withValueBit, BitVec.or_assoc]
  | false => simp [withValueBit, BitVec.and_assoc]

/-- The four fields of a committed word are those committed. -/
@[simp] theorem labelOf_committed (l : Label) (x : Sdi) (v : Value) (m : Ssm) :
    labelOf (committed l x v m).1 = l := labelOf_recombine ..

@[simp] theorem sdiOf_committed (l : Label) (x : Sdi) (v : Value) (m : Ssm) :
    sdiOf (committed l x v m).1 = x := sdiOf_recombine ..

@[simp] theorem valueOf_committed (l : Label) (x : Sdi) (v : Value) (m : Ssm) :
    valueOf (committed l x v m).1 = v := valueOf_recombine ..

@[simp] theorem ssmOf_committed (l : Label) (x : Sdi) (v : Value) (m : Ssm) :
    ssmOf (committed l x v m).1 = m := ssmOf_recombine ..

/-- SET_STATUS of any family commits the same code again, or is refused again. -/
theorem statusEffect_idem (fam : Family) (a w : Word) :
    statusEffect fam a (statusEffect fam a w).1 = statusEffect fam a w := by
  unfold statusEffect
  cases statusOperand fam a with
  | none => rfl
  | some m => simp

/-- On the word a command has left, the same command leaves that word and gives that response again: a read or
a refusal finds the word unchanged, a setter finds the fields it keeps unchanged. -/
theorem effectOf_idem (i : Instr) (w : Word) : effectOf i (effectOf i w).1 = effectOf i w := by
  cases i with
  | empty f => rfl
  | decode f raw => rfl
  | setLabel f l => simp [effectOf_setLabel]
  | setSdi f x => simp [effectOf_setSdi]
  | setValue f v => simp [effectOf_setValue]
  | setSsm f x => simp [effectOf_setSsm]
  | setBit f index on =>
    simp only [effectOf_setBit]
    cases bitIndex index with
    | none => rfl
    | some k => simp
  | getBit f index =>
    simp only [effectOf_getBit]
    cases bitIndex index with
    | none => rfl
    | some k => rfl
  | getSsm f => rfl
  | bcdNew l x v m => rfl
  | getStatusD => rfl
  | getStatusN => rfl
  | getStatusB => rfl
  | setStatusD a => simp only [effectOf_setStatusD, statusEffect_idem]
  | setStatusN a => simp only [effectOf_setStatusN, statusEffect_idem]
  | setStatusB a => simp only [effectOf_setStatusB, statusEffect_idem]

end Sys2Proof.Machine
end

section
/-! PROOFS. A step as a function of the word it finds and the pins presented in it, and runs as repeated steps
(spec/20_memory.md R49). -/

namespace Sys2Proof.Machine

/-- The word and the response a step leaves, as a function of the pins presented and the word it finds. -/
def pinsEffect (pins : PortInput) (w : Word) : Word × Response :=
  match eventOf pins with
  | .reset => (0#32, .silent)
  | .idle => (w, .silent)
  | .command c =>
    match decodeCommand c with
    | .ok i => effectOf i w
    | .error cause => (w, .illegal cause)

/-- Every step has the effect of the pins it takes, and no other. -/
theorem step_eq (s : State) : step s = .next
    ⟨(pinsEffect (takeInput s).1 s.w).1, (pinsEffect (takeInput s).1 s.w).2, (takeInput s).2.inputs⟩ := by
  rw [← takeInput_w s]
  unfold step pinsEffect
  cases eventOf (takeInput s).1 with
  | reset => rfl
  | idle => rfl
  | command c =>
    dsimp only
    cases decodeCommand c with
    | ok i => exact exec_eq i _
    | error cause => rfl

/-- A step takes the oldest input and leaves the later ones as they are. -/
theorem step_inputs_cons (s : State) (pins : PortInput) (rest : List PortInput) :
    step { s with inputs := pins :: rest } =
      .next ⟨(pinsEffect pins s.w).1, (pinsEffect pins s.w).2, rest⟩ := step_eq _

/-- A run that begins with an answering step goes on from the state answered. -/
theorem run_succ_of_step {s t : State} (h : step s = .next t) (k : Nat) :
    Host.Core.run Sys2Proof.core (k + 1) s = Host.Core.run Sys2Proof.core k t := by
  have hcore : Sys2Proof.core.step s = .next t := h
  simp only [Host.Core.run, hcore]

/-- A run over the inputs `xs` leaves whatever was to come behind them, and the same word and response in every
case. -/
theorem run_length_append (xs : List PortInput) (s : State) : ∃ t : State, ∀ ys,
    Host.Core.run Sys2Proof.core xs.length { s with inputs := xs ++ ys } = .next { t with inputs := ys } := by
  induction xs generalizing s with
  | nil => exact ⟨s, fun _ => rfl⟩
  | cons pins xs ih =>
    obtain ⟨t, ht⟩ := ih ⟨(pinsEffect pins s.w).1, (pinsEffect pins s.w).2, []⟩
    exact ⟨t, fun ys => (run_succ_of_step (step_inputs_cons s pins (xs ++ ys)) xs.length).trans (ht ys)⟩

end Sys2Proof.Machine
end

section
/-! PROOFS. The statements about what is stored and in what order (spec/20_memory.md). -/

namespace Sys2Proof.Proofs

open Sys2Proof.Machine

/-- Settles O30: the run over the inputs alone is the case in which nothing comes behind them. -/
theorem runIgnoresLaterInputs : Obligations.RunIgnoresLaterInputs := by
  intro xs ys s
  obtain ⟨t, ht⟩ := run_length_append xs s
  have halone := ht []
  rw [List.append_nil] at halone
  exact ⟨{ t with inputs := [] }, halone, rfl, ht ys⟩

/-- Settles O46: a command's effect on the word it has left is its effect before. -/
theorem everyCommandIdempotent : Obligations.EveryCommandIdempotent := by
  intro i s
  refine ⟨_, exec_eq i s, ?_⟩
  rw [exec_eq]
  simp only [effectOf_idem]

end Sys2Proof.Proofs
end

section
/-! PROOFS. The decoder by the rows of its table, and the way back from an instruction to the command that
carries it (spec/30_encoding.md R63, R64, R73). -/

namespace Sys2Proof

open Laws.OneRow

/-- Where at most one element meets a condition, the first that meets it is any that does. -/
theorem find?_eq_some_of_countP_le_one {α : Type*} {p : α → Bool} {l : List α} {x : α}
    (hcount : l.countP p ≤ 1) (hx : x ∈ l) (hp : p x = true) : l.find? p = some x := by
  have hmem : x ∈ l.filter p := List.mem_filter.2 ⟨hx, hp⟩
  rw [List.countP_eq_length_filter] at hcount
  obtain ⟨y, hy⟩ := List.length_eq_one_iff.1 (le_antisymm hcount (List.length_pos_of_mem hmem))
  rw [hy, List.mem_singleton] at hmem
  rw [← List.head?_filter, hy, hmem, List.head?_cons]

/-- At most one row matches a command word (R73). -/
theorem rowsMatching_le_one : ∀ cmd : CommandWord, rowsMatching cmd ≤ 1 := by decide

/-- A command decodes by whichever row matches its word. -/
theorem decodeCommand_of_hits {c : Command} {row : OpcodeRow} (hrow : row ∈ opcodeTable)
    (hhit : row.hits c.cmd = true) : decodeCommand c = .ok (row.build c) := by
  unfold decodeCommand
  rw [find?_eq_some_of_countP_le_one (rowsMatching_le_one c.cmd) hrow hhit]

/-- What decodes was built by a row that matches. -/
theorem row_of_decodeCommand {c : Command} {i : Instr} (h : decodeCommand c = .ok i) :
    ∃ row ∈ opcodeTable, row.hits c.cmd = true ∧ i = row.build c := by
  unfold decodeCommand at h
  cases hfind : opcodeTable.find? (fun row => row.hits c.cmd) with
  | none => simp [hfind] at h
  | some row =>
    rw [hfind] at h
    cases h
    exact ⟨row, List.mem_of_find?_eq_some hfind,
      List.find?_some (p := fun row : OpcodeRow => row.hits c.cmd) hfind, rfl⟩

/-- A command whose word no row matches is refused by its operation number. -/
theorem decodeCommand_of_no_hits {c : Command} (h : ∀ row ∈ opcodeTable, row.hits c.cmd = false) :
    decodeCommand c = .error (if c.cmd.toNat % 16 ≥ 12 then .reservedOpcode else .badFamily) := by
  have hop : (opField c.cmd).toNat = c.cmd.toNat % 16 := by simp [opField]
  have hfind : opcodeTable.find? (fun row => row.hits c.cmd) = none :=
    List.find?_eq_none.2 fun row hrow => by simp [h row hrow]
  unfold decodeCommand
  rw [hfind, hop]

/-! ### Which words a row matches -/

/-- A row's pattern fixes the operation number of the words it matches. -/
theorem op_of_hits : ∀ cmd : CommandWord, ∀ row ∈ opcodeTable, row.hits cmd = true →
    cmd.toNat % 16 = row.pattern.toNat % 16 := by decide

/-- A base row reads the operation number alone. -/
theorem hits_of_mem_baseRows : ∀ cmd : CommandWord, ∀ row ∈ baseRows,
    row.hits cmd = (cmd.toNat % 16 == row.pattern.toNat) := by decide

/-- The family rows match words with operation numbers 9 to 11 alone. -/
theorem not_hits_of_mem_familyRows : ∀ cmd : CommandWord, cmd.toNat % 16 < 9 ∨ 12 ≤ cmd.toNat % 16 →
    ∀ row ∈ familyRows, row.hits cmd = false := by decide

/-- Outside operation numbers 9 to 11 the rows that match a word do not depend on its `fam` bits (R64). -/
theorem hits_congr {p q : CommandWord} (hop : p.toNat % 16 = q.toNat % 16)
    (hblind : p = q ∨ p.toNat % 16 < 9 ∨ 12 ≤ p.toNat % 16) :
    ∀ row ∈ opcodeTable, row.hits p = row.hits q := by
  intro row hrow
  obtain rfl | hblind := hblind
  · rfl
  · obtain hbase | hfamily := List.mem_append.1 hrow
    · rw [hits_of_mem_baseRows p row hbase, hits_of_mem_baseRows q row hbase, hop]
    · rw [not_hits_of_mem_familyRows p hblind row hfamily,
        not_hits_of_mem_familyRows q (hop ▸ hblind) row hfamily]

/-- Every row matches its own pattern. -/
theorem hits_pattern (n : Nat) (row : OpcodeRow) (hrow : opcodeTable[n]? = some row) :
    row.hits row.pattern = true :=
  (by decide : ∀ row ∈ opcodeTable, row.hits row.pattern = true) row (List.mem_of_getElem? hrow)

/-- Row `op` of the table matches the word of a family-blind operation number, whatever the `fam` bits. -/
theorem hits_commandWord (f : FamilyCode) :
    ∀ op < 9, ∀ row ∈ opcodeTable[op]?, row.hits (commandWord f op) = true := by
  cases f <;> decide

/-- A row as R73 lists it: mask, pattern and mnemonic. -/
def specRow (c : Command) (row : OpcodeRow) : Nat × Nat × String :=
  (row.mask.toNat, row.pattern.toNat, (row.build c).mnemonic)

/-- Matching by numbers, as R73 writes it, is matching by words. -/
theorem specRow_hits (c : Command) (row : OpcodeRow) (cmd : CommandWord) :
    (cmd.toNat &&& (specRow c row).1 == (specRow c row).2.1) = row.hits cmd := by
  rw [Bool.eq_iff_iff, OpcodeRow.hits, beq_iff_eq, beq_iff_eq, BitVec.toNat_eq, BitVec.toNat_and]
  rfl

/-! ### From an instruction to its command and back -/

@[simp] theorem encode_cmd (i : Instr) : (encode i).cmd = i.word := by cases i <;> rfl

/-- The `fam` bits of a command word are those it was put together from. -/
@[simp] theorem ofBits_famField_commandWord (f : FamilyCode) (op : Nat) :
    FamilyCode.ofBits (famField (commandWord f op)) = f := by
  have hfam : famField (commandWord f op) = f.bits := by
    refine BitVec.eq_of_getLsbD_eq fun i hi => ?_
    rw [famField, commandWord, BitVec.getLsbD_extractLsb', BitVec.getLsbD_append]
    simp [hi]
  rw [hfam]; cases f <;> rfl

/-- A command whose word row `n` matches decodes to what that row builds. -/
theorem decodeCommand_of_row {c : Command} {i : Instr} (n : Nat) {row : OpcodeRow}
    (hrow : opcodeTable[n]? = some row) (hhit : row.hits c.cmd = true) (hbuild : row.build c = i) :
    decodeCommand c = .ok i :=
  hbuild ▸ decodeCommand_of_hits (List.mem_of_getElem? hrow) hhit

/-- A command with the word of a family-blind operation number decodes to what the row of that number builds,
with the `fam` bits of the word. -/
theorem decodeCommand_of_blind {c : Command} {i : Instr} {f : FamilyCode} (op : Nat) (hop : op < 9)
    (hcmd : c.cmd = commandWord f op) {row : OpcodeRow} (hrow : opcodeTable[op]? = some row)
    (hbuild : c.fam = f → row.build c = i) : decodeCommand c = .ok i :=
  decodeCommand_of_row op hrow (hcmd ▸ hits_commandWord f op hop row hrow)
    (hbuild (by rw [Command.fam, hcmd, ofBits_famField_commandWord]))

/-- Decoding undoes encoding: each constructor's word is matched by the row of its place in the table. -/
theorem decodeCommand_encode (i : Instr) : decodeCommand (encode i) = .ok i := by
  cases i with
  | empty f => exact decodeCommand_of_blind 0 (by decide) rfl rfl (congrArg Instr.empty)
  | decode f raw => exact decodeCommand_of_blind 1 (by decide) rfl rfl (congrArg (Instr.decode · raw))
  | setLabel f l => exact decodeCommand_of_blind 2 (by decide) rfl rfl (congrArg (Instr.setLabel · l))
  | setSdi f x => exact decodeCommand_of_blind 3 (by decide) rfl rfl (congrArg (Instr.setSdi · x))
  | setValue f v => exact decodeCommand_of_blind 4 (by decide) rfl rfl (congrArg (Instr.setValue · v))
  | setSsm f x => exact decodeCommand_of_blind 5 (by decide) rfl rfl (congrArg (Instr.setSsm · x))
  | setBit f index on =>
    exact decodeCommand_of_blind 6 (by decide) rfl rfl (congrArg (Instr.setBit · index on))
  | getBit f index => exact decodeCommand_of_blind 7 (by decide) rfl rfl (congrArg (Instr.getBit · index))
  | getSsm f => exact decodeCommand_of_blind 8 (by decide) rfl rfl (congrArg Instr.getSsm)
  | bcdNew l x v m => exact decodeCommand_of_row 9 rfl (hits_pattern 9 _ rfl) rfl
  | getStatusD => exact decodeCommand_of_row 10 rfl (hits_pattern 10 _ rfl) rfl
  | getStatusN => exact decodeCommand_of_row 11 rfl (hits_pattern 11 _ rfl) rfl
  | getStatusB => exact decodeCommand_of_row 12 rfl (hits_pattern 12 _ rfl) rfl
  | setStatusD a => exact decodeCommand_of_row 13 rfl (hits_pattern 13 _ rfl) rfl
  | setStatusN a => exact decodeCommand_of_row 14 rfl (hits_pattern 14 _ rfl) rfl
  | setStatusB a => exact decodeCommand_of_row 15 rfl (hits_pattern 15 _ rfl) rfl

/-- A row builds, from every word it matches, an instruction with that word: the word does not depend on the
operands, and with operands 0 there are 64 words. -/
theorem word_build {row : OpcodeRow} (hrow : row ∈ opcodeTable) {c : Command} (hhit : row.hits c.cmd = true) :
    (row.build c).word = c.cmd := by
  have hoperands : (row.build c).word = (row.build ⟨c.cmd, 0, 0, 0, 0⟩).word := by fin_cases hrow <;> rfl
  have hwords : ∀ cmd : CommandWord, ∀ row ∈ opcodeTable, row.hits cmd = true →
      (row.build ⟨cmd, 0, 0, 0, 0⟩).word = cmd := by decide
  rw [hoperands, hwords c.cmd row hrow hhit]

/-- The encoded instruction has the command's operand on each port R64 says operation number `op` uses. -/
def CarriesUsedPorts (op : Nat) (c : Command) (i : Instr) : Prop :=
  (op ∈ [1, 2, 3, 4, 5, 6, 7, 9, 11] → (encode i).a = c.a) ∧
  (op ∈ [6, 9] → (encode i).b = c.b) ∧
  (op = 9 → (encode i).c = c.c ∧ (encode i).d = c.d)

/-- A row builds its instruction from the ports R64 says it uses. -/
theorem build_carriesUsedPorts {row : OpcodeRow} (hrow : row ∈ opcodeTable) (c : Command) :
    CarriesUsedPorts (row.pattern.toNat % 16) c (row.build c) := by
  fin_cases hrow <;> simp [CarriesUsedPorts, encode]

end Sys2Proof
end

section
/-! PROOFS. Well-formed commands, their effects, and R69's table of refusals (spec/30_encoding.md R68, R69). -/

namespace Sys2Proof.Machine

open Sys2Proof.Safety

/-- The number is the status code of no member of the family (R66, R92). -/
def noMember (fam : Family) (n : Nat) : Bool :=
  match fam with
  | .discrete => 3 < n
  | .bnr => 3 < n
  | .bcd => n ≠ 1 ∧ n ≠ 2 ∧ n ≠ 4 ∧ n ≠ 5

/-- A status operand, compared whole, is refused exactly if it is the code of no member of the family (R69). -/
theorem statusOperand_eq_none_iff (fam : Family) (a : Word) :
    statusOperand fam a = none ↔ noMember fam a.toNat = true := by
  by_cases hbig : a.toNat > 7
  · have hno : noMember fam a.toNat = true := by cases fam <;> simp [noMember] <;> omega
    simp [statusOperand, hbig, hno]
  · obtain ⟨n, rfl⟩ : ∃ n : BitVec 3, a = n.setWidth 32 :=
      ⟨a.setWidth 3, by apply BitVec.eq_of_toNat_eq; simp; omega⟩
    cases fam <;> revert n <;> decide

/-- SET_STATUS of any family refuses what is no member. -/
theorem statusEffect_of_not_isSome {fam : Family} {a : Word} (h : (statusOperand fam a).isSome = false)
    (w : Word) : statusEffect fam a w = (w, .illegal .badStatus) := by
  rw [statusEffect, Option.not_isSome_iff_eq_none.1 (ne_true_of_eq_false h)]

/-- SET_STATUS of any family accepts a member. -/
theorem statusEffect_not_ill {fam : Family} {a : Word} (h : (statusOperand fam a).isSome = true) (w : Word) :
    (statusEffect fam a w).2.ill = false := by
  obtain ⟨m, hm⟩ := Option.isSome_iff_exists.1 h
  rw [statusEffect, hm]; rfl

/-- The cause an ill-formed command is refused with: its operand is a bit index or a status code (R69). -/
def operandCause (i : Instr) : IllegalCause :=
  if i.mnemonic ∈ ["SET_BIT", "GET_BIT"] then .badBitIndex else .badStatus

/-- An ill-formed command is refused, and the word kept. -/
theorem effectOf_of_not_wellFormed {i : Instr} (h : i.wellFormed = false) (w : Word) :
    effectOf i w = (w, .illegal (operandCause i)) := by
  cases i with
  | setBit f index on =>
    rw [effectOf_setBit, Option.not_isSome_iff_eq_none.1 (ne_true_of_eq_false h)]; rfl
  | getBit f index =>
    rw [effectOf_getBit, Option.not_isSome_iff_eq_none.1 (ne_true_of_eq_false h)]; rfl
  | setStatusD a => rw [effectOf_setStatusD, statusEffect_of_not_isSome h]; rfl
  | setStatusN a => rw [effectOf_setStatusN, statusEffect_of_not_isSome h]; rfl
  | setStatusB a => rw [effectOf_setStatusB, statusEffect_of_not_isSome h]; rfl
  | _ => cases h

/-- A well-formed command is not refused. -/
theorem effectOf_not_ill {i : Instr} (h : i.wellFormed = true) (w : Word) : (effectOf i w).2.ill = false := by
  cases i with
  | setBit f index on =>
    obtain ⟨k, hk⟩ := Option.isSome_iff_exists.1 h
    rw [effectOf_setBit, hk]; rfl
  | getBit f index =>
    obtain ⟨k, hk⟩ := Option.isSome_iff_exists.1 h
    rw [effectOf_getBit, hk]; rfl
  | setStatusD a => rw [effectOf_setStatusD, statusEffect_not_ill h]
  | setStatusN a => rw [effectOf_setStatusN, statusEffect_not_ill h]
  | setStatusB a => rw [effectOf_setStatusB, statusEffect_not_ill h]
  | _ => rfl

/-- What does not decode is in R69's table with the decoder's cause. -/
theorem illegalCause_of_error {c : Command} {e : IllegalCause} (h : decodeCommand c = .error e) :
    illegalCause c = some e := by
  have hc := decodeCommand_cases c
  simp only [h, reduceCtorEq, and_false, false_or, Except.error.injEq] at hc
  obtain ⟨hop, rfl⟩ | ⟨hfam, rfl⟩ := hc
  · simp [illegalCause, hop]
  · simp only [illegalCause]
    rw [if_neg (by omega), if_pos hfam]

/-- What decodes is in R69's table exactly if it is ill formed. -/
theorem illegalCause_of_ok {c : Command} {i : Instr} (h : decodeCommand c = .ok i) :
    illegalCause c = if i.wellFormed = false then some (operandCause i) else none := by
  have hc := decodeCommand_cases c
  cases i with
  | setBit f index on =>
    obtain ⟨hop, -, rfl, -⟩ : c.cmd.toNat % 16 = 6 ∧ f = c.fam ∧ index = c.a ∧ on = c.b := by
      simpa [h] using hc
    simp [illegalCause, hop, Instr.wellFormed, bitIndex_eq_none_iff, operandCause, Instr.mnemonic]
  | getBit f index =>
    obtain ⟨hop, -, rfl⟩ : c.cmd.toNat % 16 = 7 ∧ f = c.fam ∧ index = c.a := by simpa [h] using hc
    simp [illegalCause, hop, Instr.wellFormed, bitIndex_eq_none_iff, operandCause, Instr.mnemonic]
  | setStatusD a =>
    obtain ⟨hcmd, rfl⟩ : c.cmd = 0x1B#6 ∧ a = c.a := by simpa [h] using hc
    simp [illegalCause, hcmd, Instr.wellFormed, statusOperand_eq_none_iff, noMember, operandCause,
      Instr.mnemonic]
  | setStatusN a =>
    obtain ⟨hcmd, rfl⟩ : c.cmd = 0x2B#6 ∧ a = c.a := by simpa [h] using hc
    simp [illegalCause, hcmd, Instr.wellFormed, statusOperand_eq_none_iff, noMember, operandCause,
      Instr.mnemonic]
  | setStatusB a =>
    obtain ⟨hcmd, rfl⟩ : c.cmd = 0x3B#6 ∧ a = c.a := by simpa [h] using hc
    simp [illegalCause, hcmd, Instr.wellFormed, statusOperand_eq_none_iff, noMember, operandCause,
      Instr.mnemonic]
  | _ =>
    simp only [h, Except.ok.injEq, reduceCtorEq, and_false, false_or, or_false, Instr.bcdNew.injEq] at hc
    simp [illegalCause, hc, Instr.wellFormed]

/-- A command that decodes is outside R69's table exactly if it is well formed. -/
theorem illegalCause_eq_none_iff {c : Command} {i : Instr} (h : decodeCommand c = .ok i) :
    illegalCause c = none ↔ i.wellFormed = true := by
  simp [illegalCause_of_ok h]

end Sys2Proof.Machine
end

section
/-! PROOFS. The effect of what the host presents: an idle port, a command, and a command inside the contract
(spec/30_encoding.md R62, R64, R68, R69). -/

namespace Sys2Proof.Machine

open Sys2Proof.Safety

/-- The idle step keeps the word and answers nothing. -/
theorem step_of_idle {s : State} (h : eventOf (takeInput s).1 = .idle) :
    step s = .next ((takeInput s).2.give .silent) := by
  unfold step; rw [h]; rfl

/-- A presented command that decodes has its own effect. -/
theorem pinsEffect_present_of_ok {c : Command} {i : Instr} (h : decodeCommand c = .ok i) (w : Word) :
    pinsEffect (present c) w = effectOf i w := by
  simp [pinsEffect, eventOf, present, h]

/-- A presented command that does not decode is refused, and the word kept. -/
theorem pinsEffect_present_of_error {c : Command} {e : IllegalCause} (h : decodeCommand c = .error e)
    (w : Word) : pinsEffect (present c) w = (w, .illegal e) := by
  simp [pinsEffect, eventOf, present, h]

/-- Two commands that agree in what R64 and R68 say a row reads have the same effect by that row. -/
theorem effectOf_build_congr {row : OpcodeRow} (hrow : row ∈ opcodeTable) {c e : Command}
    (ha : row.pattern.toNat % 16 ∈ [1, 2, 3, 4, 5, 6, 7, 9, 11] → c.a = e.a)
    (hon : row.pattern.toNat % 16 = 6 → c.b.getLsbD 0 = e.b.getLsbD 0)
    (hbcd : row.pattern.toNat % 16 = 9 → c.b = e.b ∧ c.c = e.c ∧ c.d = e.d) (w : Word) :
    effectOf (row.build c) w = effectOf (row.build e) w := by
  fin_cases hrow
  · rfl
  · simp [effectOf_decode, ha]
  · simp [effectOf_setLabel, ha]
  · simp [effectOf_setSdi, ha]
  · simp [effectOf_setValue, ha]
  · simp [effectOf_setSsm, ha]
  · simp only [effectOf_setBit, ha (by decide), onOperand, hon rfl]
  · simp [effectOf_getBit, ha]
  · rfl
  · obtain ⟨hb, hc, hd⟩ := hbcd rfl
    simp [ha, hb, hc, hd]
  · rfl
  · rfl
  · rfl
  · simp [ha]
  · simp [ha]
  · simp [ha]

/-- Pins inside the contract are not refused. -/
theorem pinsEffect_not_ill {pins : PortInput} (h : insideContract pins) (w : Word) :
    (pinsEffect pins w).2.ill = false := by
  cases he : eventOf pins with
  | reset => simp [pinsEffect, he, Response.ill]
  | idle => simp [pinsEffect, he, Response.ill]
  | command c =>
    obtain ⟨hreset, hvalid, rfl⟩ := pins_of_eventOf_command he
    have hcause := h hreset hvalid
    cases hd : decodeCommand pins.command with
    | error e => simp [illegalCause_of_error hd] at hcause
    | ok i => simpa [pinsEffect, he, hd] using effectOf_not_ill ((illegalCause_eq_none_iff hd).1 hcause) w

/-- Where all that is to come is inside the contract, so is what a step takes: an idle port is, too. -/
theorem insideContract_takeInput {s : State} (h : ContractRun s) : insideContract (takeInput s).1 := by
  rw [takeInput_pins]
  cases hs : s.inputs with
  | nil => exact nofun
  | cons pins rest => exact h pins (by simp [hs])

/-- A presented command that decodes lies inside the contract exactly if it is well formed. -/
theorem insideContract_present_iff {c : Command} {i : Instr} (h : decodeCommand c = .ok i) :
    insideContract (present c) ↔ i.wellFormed = true := by
  rw [← illegalCause_eq_none_iff h]
  exact ⟨fun hc => hc rfl rfl, fun hc _ _ => hc⟩

end Sys2Proof.Machine
end

section
/-! PROOFS. The rows of the layout table as slices of the word (spec/30_encoding.md R60,
spec/40_combinational_core.md R81). -/

namespace Sys2Proof.Machine

/-- A field read by a row of the layout table is the slice at the row's offset. -/
theorem read_of_mem_layout {row : FieldRow} (hrow : row ∈ layout) (r : Word) :
    row.read r = (r.extractLsb' row.offset row.width).toNat := by
  have hmasks : ∀ row ∈ layout, row.mask = 2 ^ row.width - 1 := by decide
  rw [FieldRow.read, hmasks row hrow, Nat.and_two_pow_sub_one_eq_mod, BitVec.extractLsb'_toNat]

end Sys2Proof.Machine
end

section
/-! PROOFS. The statements about encoding, decoding and the contract (spec/30_encoding.md). -/

namespace Sys2Proof.Proofs

open Sys2Proof.Machine Sys2Proof.Safety

/-- Settles O3: the row that matches a word builds an instruction with that word and with the operands of the
ports it uses. -/
theorem decodeEncodeRoundTrip : Obligations.DecodeEncodeRoundTrip := by
  refine ⟨decodeCommand_encode, fun c i h => ?_⟩
  obtain ⟨row, hrow, hhit, rfl⟩ := row_of_decodeCommand h
  rw [encode_cmd, op_of_hits c.cmd row hrow hhit]
  exact ⟨word_build hrow hhit, build_carriesUsedPorts hrow c⟩

/-- Settles O53: the pins taken are inside the contract, and what is still to come was to come before. -/
theorem stepKeepsContractRun : Obligations.StepKeepsContractRun := by
  intro s h
  exact ⟨_, step_eq s, step_keeps_inputs (step_eq s) h, pinsEffect_not_ill (insideContract_takeInput h) s.w⟩

/-- Settles O1: the statement's table is the model's, row by row, and at most one row matches. -/
theorem commandWordsDecodeByTable : Obligations.CommandWordsDecodeByTable := by
  unfold Obligations.CommandWordsDecodeByTable
  intro base family hits
  have htable : ∀ c, base ++ family = opcodeTable.map (specRow c) := fun _ => rfl
  refine ⟨fun c row hrow hhit => ?_, fun c hnone => ?_, by decide, by decide, by decide, by decide⟩
  · rw [htable c] at hrow
    obtain ⟨r, hr, rfl⟩ := List.mem_map.1 hrow
    exact ⟨r.build c, decodeCommand_of_hits hr (specRow_hits c r c.cmd ▸ hhit), rfl⟩
  · rw [htable c, List.forall_mem_map] at hnone
    exact decodeCommand_of_no_hits fun r hr => specRow_hits c r c.cmd ▸ hnone r hr

/-- Settles O4: both commands are matched by the same row, which reads only what they agree in, or by none. -/
theorem ignoredPinsHaveNoEffect : Obligations.IgnoredPinsHaveNoEffect := by
  intro s rest c e hop hblind ha hon hbcd
  have hrows := hits_congr hop hblind
  have heff : pinsEffect (present c) s.w = pinsEffect (present e) s.w := by
    by_cases hc : ∃ row ∈ opcodeTable, row.hits c.cmd = true
    · obtain ⟨row, hrow, hhit⟩ := hc
      rw [op_of_hits c.cmd row hrow hhit] at ha hon hbcd
      rw [pinsEffect_present_of_ok (decodeCommand_of_hits hrow hhit),
        pinsEffect_present_of_ok (decodeCommand_of_hits hrow (hrows row hrow ▸ hhit))]
      exact effectOf_build_congr hrow ha hon hbcd s.w
    · have hnone : ∀ row ∈ opcodeTable, row.hits c.cmd = false := by simpa using hc
      rw [pinsEffect_present_of_error (decodeCommand_of_no_hits hnone),
        pinsEffect_present_of_error
          (decodeCommand_of_no_hits fun row hrow => hrows row hrow ▸ hnone row hrow), hop]
  rw [step_inputs_cons, step_inputs_cons, heff]

/-- Settles O24: a well-formed command is not refused; an ill-formed one is, and keeps the word. -/
theorem wellFormedExactlyAccepted : Obligations.WellFormedExactlyAccepted := by
  intro i s
  refine ⟨_, exec_eq i s, rfl, ?_⟩
  cases hwf : i.wellFormed with
  | true => simp [effectOf_not_ill hwf]
  | false => simp [effectOf_of_not_wellFormed hwf, Response.ill]

/-- Settles O32, by induction on the length of the run: every step is accepted and keeps the contract. -/
theorem contractKeptNeverRefused : Obligations.ContractKeptNeverRefused := by
  intro k
  induction k with
  | zero => exact fun _ _ => trivial
  | succ k ih =>
    intro s h
    obtain ⟨t, hstep, hkeep, hill⟩ := stepKeepsContractRun s h
    exact ⟨t, hstep, hill, ih t hkeep⟩

/-- Settles O36: each row's mask is the one of its width, and the slices are at the rows' offsets. -/
theorem fieldsFollowLayoutTable : Obligations.FieldsFollowLayoutTable := by
  refine ⟨rfl, fun r => ?_⟩
  rw [List.map_congr_left fun row hrow => read_of_mem_layout hrow r]
  rfl

/-- Settles O54: an encoded instruction decodes to itself, and what decodes lies inside the contract exactly if
it is well formed. -/
theorem wellFormedCommandsKeepContract : Obligations.WellFormedCommandsKeepContract := by
  refine ⟨fun pins hmem => by simp at hmem, fun s is hwf pins hmem => ?_, fun c i => insideContract_present_iff⟩
  obtain ⟨i, hi, rfl⟩ := List.mem_map.1 hmem
  exact (insideContract_present_iff (decodeCommand_encode i)).2 (hwf i hi)

/-- Settles O2: nine closed words, decoded. -/
theorem sampleWordsDecode : Obligations.SampleWordsDecode := by
  unfold Obligations.SampleWordsDecode
  decide

/-- Settles O7: without reset and `cmd_valid`, and with nothing left in the list, the port is idle. -/
theorem idleStepLeavesWord : Obligations.IdleStepLeavesWord := by
  refine ⟨fun s pins rest hin hreset hvalid => ?_, fun s hin => ?_⟩
  · have hidle : eventOf (takeInput s).1 = .idle := by simp [hin, eventOf, hreset, hvalid]
    exact ⟨_, step_of_idle hidle, takeInput_w s, by simp [hin], rfl, rfl, rfl, rfl⟩
  · have hidle : eventOf (takeInput s).1 = .idle := by simp [hin, eventOf, idlePins]
    exact ⟨_, step_of_idle hidle, takeInput_w s, by simp [hin], rfl, rfl, rfl, rfl⟩

/-- Settles O52, line by line of R72: each is its expansion by definition, for every family and member. -/
theorem aliasesExpand : Obligations.AliasesExpand := by
  refine ⟨fun f raw => ⟨rfl, rfl⟩, fun l x v m => ⟨rfl, rfl⟩, fun raw => ⟨rfl, rfl, rfl⟩,
    fun f i => ⟨rfl, rfl⟩, fun fam m => ?_, fun fam => ?_⟩
  · cases fam <;> cases m <;> exact ⟨rfl, rfl, rfl, rfl⟩
  · cases fam <;> exact ⟨rfl, rfl⟩

end Sys2Proof.Proofs
end

section
/-! PROOFS. The five fields as a word's digits and as its bits counted, and what follows for a recombined word
(spec/40_combinational_core.md R82, R85 to R88). -/

namespace Sys2Proof.Machine

@[simp] theorem parityOf_recombine (l : Label) (x : Sdi) (v : Value) (m : Ssm) (p : Bit) :
    parityOf (recombine l x v m p) = p := by
  refine BitVec.eq_of_getLsbD_eq fun i hi => ?_
  rw [parityOf_getLsbD, recombine_getLsbD, if_pos (by omega), show i = 0 by omega]
  rfl

/-- A composite is the word recombined with a zero parity bit. -/
theorem recombine_zero (l : Label) (x : Sdi) (v : Value) (m : Ssm) :
    recombine l x v m 0#1 = composite l x v m := by
  simp [recombine]

/-- The masks of R80 as R87 (c) writes them. -/
theorem extractLsb'_zero_toNat (x : Word) (n : Nat) : (x.extractLsb' 0 n).toNat = x.toNat &&& 2 ^ n - 1 := by
  rw [BitVec.extractLsb'_toNat, Nat.shiftRight_zero, Nat.and_two_pow_sub_one_eq_mod]

/-- A word as an integer is the sum of its fields, each with the weight of its offset. -/
theorem toNat_eq_fields (r : Word) :
    r.toNat = (labelOf r).toNat + 256 * (sdiOf r).toNat + 1024 * (valueOf r).toNat
      + 536870912 * (ssmOf r).toNat + 2147483648 * (parityOf r).toNat := by
  simp only [labelOf, sdiOf, valueOf, ssmOf, parityOf, BitVec.extractLsb'_toNat, Nat.shiftRight_eq_div_pow]
  omega

theorem recombine_toNat (l : Label) (x : Sdi) (v : Value) (m : Ssm) (p : Bit) :
    (recombine l x v m p).toNat =
      l.toNat + 256 * x.toNat + 1024 * v.toNat + 536870912 * m.toNat + 2147483648 * p.toNat := by
  simpa using toNat_eq_fields (recombine l x v m p)

theorem composite_toNat (l : Label) (x : Sdi) (v : Value) (m : Ssm) :
    (composite l x v m).toNat = l.toNat + 256 * x.toNat + 1024 * v.toNat + 536870912 * m.toNat := by
  simpa [recombine_zero] using recombine_toNat l x v m 0#1

/-- The popcount of a slice is that of its lower part and that of the part above it. -/
theorem popcount_extractLsb'_add {n : Nat} (r : BitVec n) (start a b : Nat) :
    popcount (r.extractLsb' start (a + b)) =
      popcount (r.extractLsb' start a) + popcount (r.extractLsb' (start + a) b) := by
  unfold popcount
  rw [List.range_add, List.map_append, List.sum_append, List.map_map]
  congr 2 <;> refine List.map_congr_left fun i hi => ?_
  · have hi := List.mem_range.1 hi
    simp [hi, show i < a + b by omega]
  · have hi := List.mem_range.1 hi
    simp [hi, Nat.add_assoc]

/-- A word's popcount is the sum of its fields' popcounts. -/
theorem popcount_eq_fields (r : Word) :
    popcount r = popcount (labelOf r) + popcount (sdiOf r) + popcount (valueOf r) + popcount (ssmOf r)
      + popcount (parityOf r) := by
  calc popcount r = popcount (r.extractLsb' 0 (8 + 2 + 19 + 2 + 1)) := by rw [BitVec.extractLsb'_eq_self]
    _ = _ := by simp only [popcount_extractLsb'_add]; rfl

theorem popcount_bit (p : Bit) : popcount p = p.toNat := by revert p; decide

theorem popcount_recombine (l : Label) (x : Sdi) (v : Value) (m : Ssm) (p : Bit) :
    popcount (recombine l x v m p) = popcount l + popcount x + popcount v + popcount m + p.toNat := by
  simpa [popcount_bit] using popcount_eq_fields (recombine l x v m p)

theorem popcount_composite (l : Label) (x : Sdi) (v : Value) (m : Ssm) :
    popcount (composite l x v m) = popcount l + popcount x + popcount v + popcount m := by
  simpa [recombine_zero] using popcount_recombine l x v m 0#1

/-- The fold keeps the parity of the popcount, because it keeps the XOR of the bits. -/
theorem popcount_fold_mod_two (c : Word) : popcount (fold c) % 2 = popcount c % 2 := by
  rw [popcount_mod_two, popcount_mod_two, xorBits_fold]

theorem parityEntry_toNat (n : BitVec 4) : (parityEntry n).toNat = popcount n % 2 := by
  revert n; decide

/-- The closed form of the parity bit: table and fold give the composite's parity, and 1 minus it inverts. -/
theorem parityBit_toNat (l : Label) (x : Sdi) (v : Value) (m : Ssm) :
    (parityBit l x v m).toNat = 1 - popcount (composite l x v m) % 2 := by
  have inv : ∀ b : Bit, (1#1 - b).toNat = 1 - b.toNat := by decide
  rw [parityBit, inv, parityEntry_toNat, popcount_fold_mod_two]

/-- A word's popcount is odd exactly if its parity bit is the one computed from its fields. -/
theorem popcount_recombine_odd_iff (l : Label) (x : Sdi) (v : Value) (m : Ssm) (p : Bit) :
    popcount (recombine l x v m p) % 2 = 1 ↔ parityBit l x v m = p := by
  rw [← BitVec.toNat_inj, parityBit_toNat, popcount_composite, popcount_recombine]
  have hp := p.isLt
  omega

end Sys2Proof.Machine
end

section
/-! PROOFS. Writing one bit of the value, as an integer (spec/40_combinational_core.md R90). -/

namespace Sys2Proof.Machine

/-- Writing the bit already held changes nothing. -/
theorem withValueBit_getLsbD_self (v : Value) {k : Nat} (hk : k < 19) : withValueBit v k (v.getLsbD k) = v := by
  refine BitVec.eq_of_getLsbD_eq fun i _ => ?_
  rw [withValueBit_getLsbD v k _ i hk]
  split_ifs with hi
  · rw [hi]
  · rfl

/-- Of two writes to the same bit the later one counts. -/
theorem withValueBit_withValueBit (v : Value) {k : Nat} (hk : k < 19) (on on' : Bool) :
    withValueBit (withValueBit v k on) k on' = withValueBit v k on' := by
  refine BitVec.eq_of_getLsbD_eq fun i _ => ?_
  simp only [withValueBit_getLsbD _ k _ i hk]
  split_ifs <;> rfl

/-- Setting a 0 bit adds its weight: the OR is with a bit that is not there, and so a sum without carry. -/
theorem withValueBit_true_toNat {v : Value} {k : Nat} (hk : k < 19) (hv : v.getLsbD k = false) :
    (withValueBit v k true).toNat = v.toNat + 2 ^ k := by
  have hset : withValueBit v k true = v ||| BitVec.twoPow 19 k := rfl
  have hdisjoint : v &&& BitVec.twoPow 19 k = 0#19 := by simp [BitVec.and_twoPow, hv]
  rw [hset, ← BitVec.add_eq_or_of_and_eq_zero _ _ hdisjoint, BitVec.toNat_add_of_and_eq_zero hdisjoint,
    BitVec.toNat_twoPow_of_lt hk]

/-- Clearing a 1 bit subtracts its weight, because setting it again adds the weight and gives the value back. -/
theorem withValueBit_false_toNat {v : Value} {k : Nat} (hk : k < 19) (hv : v.getLsbD k = true) :
    (withValueBit v k false).toNat + 2 ^ k = v.toNat := by
  have hcleared : (withValueBit v k false).getLsbD k = false := by rw [withValueBit_getLsbD v k _ k hk, if_pos rfl]
  rw [← withValueBit_true_toNat hk hcleared, withValueBit_withValueBit v hk, ← hv, withValueBit_getLsbD_self v hk]

end Sys2Proof.Machine
end

section
/-! PROOFS. The statements about the combinational core (spec/40_combinational_core.md). -/

namespace Sys2Proof.Proofs

open Sys2Proof.Machine

/-- Settles O37: the fields are the digits of the word, and the parity bit's weight is 2^31. -/
theorem recombinedWordAsInteger : Obligations.RecombinedWordAsInteger := by
  intro l x v m p
  have hl := l.isLt
  have hx := x.isLt
  have hv := v.isLt
  have hm := m.isLt
  have hlt : (composite l x v m).toNat < 2 ^ 31 := by rw [composite_toNat]; omega
  refine ⟨Nat.testBit_lt_two_pow hlt, composite_toNat l x v m, hlt, recombine_toNat l x v m p, ?_⟩
  rintro rfl
  rw [recombine_toNat]
  exact Nat.le_add_left ..

/-- Settles O39: a word is its fields recombined, and a recombined word shows the fields it was given. -/
theorem demuxRecombineRoundTrip : Obligations.DemuxRecombineRoundTrip := by
  refine ⟨recombine_fields, fun t => ?_, fun l x v m p => ?_⟩
  · simp [demux, Fields.recombine]
  · simp only [demux, labelOf_recombine, sdiOf_recombine, valueOf_recombine, ssmOf_recombine]
    exact ⟨extractLsb'_zero_toNat l 8, extractLsb'_zero_toNat x 2, extractLsb'_zero_toNat v 19,
      extractLsb'_zero_toNat m 2⟩

/-- Settles O41: the fold keeps the XOR of the bits, which is the popcount's parity. -/
theorem foldKeepsPopcountParity : Obligations.FoldKeepsPopcountParity := popcount_fold_mod_two

/-- Settles O42: the composite's popcount is the fields' together, and the parity bit is 1 minus its parity. -/
theorem parityBitClosedForm : Obligations.ParityBitClosedForm := by
  intro l x v m
  have hbit := parityBit_toNat l x v m
  refine ⟨popcount_composite l x v m ▸ hbit, ?_⟩
  rw [← BitVec.toNat_inj, hbit, BitVec.toNat_one (by decide)]
  omega

/-- Settles O43: the parity bit is the computed one. -/
theorem recombinedWordHasOddParity : Obligations.RecombinedWordHasOddParity :=
  fun l x v m => (popcount_recombine_odd_iff l x v m _).2 rfl

/-- Settles O44: the word held is its own fields recombined. -/
theorem parityCheckAtOutputs : Obligations.ParityCheckAtOutputs := by
  intro s
  have h := popcount_recombine_odd_iff s.labelO s.sdiO s.valueO s.ssmO s.parityO
  rwa [show recombine s.labelO s.sdiO s.valueO s.ssmO s.parityO = s.rawO from recombine_fields s.w] at h

/-- Settles O50: the new value is the old one with one bit written, whichever of the four cases it is. -/
theorem setBitAddsOrSubtractsWeight : Obligations.SetBitAddsOrSubtractsWeight := by
  intro f index on s hlow hhigh
  obtain ⟨k, hk⟩ : ∃ k, index.toNat = k + 1 := ⟨index.toNat - 1, by omega⟩
  have hk19 : k < 19 := by omega
  have hindex : bitIndex index = some k := (bitIndex_eq_some_iff index k).2 ⟨hk, hk19⟩
  have hbit : s.w.getLsbD (9 + index.toNat) = s.valueO.getLsbD k := by
    rw [State.valueO, valueOf_getLsbD, hk, show 9 + (k + 1) = 10 + k by omega]
    simp [hk19]
  refine ⟨_, exec_eq _ s, ?_⟩
  simp only [State.valueO, effectOf_setBit, hindex, valueOf_committed]
  rw [hbit, hk, Nat.add_sub_cancel]
  refine ⟨fun hclear hon => ?_, fun hset hoff => ?_, fun hsame => ?_⟩
  · rw [onOperand, hon]
    exact withValueBit_true_toNat hk19 hclear
  · rw [onOperand, hoff]
    exact withValueBit_false_toNat hk19 hset
  · rw [onOperand, ← hsame]
    exact withValueBit_getLsbD_self _ hk19

/-- Settles O40: sixteen closed entries, and the closed form of an entry. -/
theorem parityTableEntries : Obligations.ParityTableEntries := ⟨by decide, parityEntry_toNat⟩

/-- Settles O45: the tables of R92 and R93, family by family. -/
theorem statusTablesInverse : Obligations.StatusTablesInverse := by
  refine ⟨by decide, by decide, by decide, fun fam => ?_, fun fam q => ?_⟩
  · cases fam <;> decide
  · cases fam <;> cases q <;> decide

end Sys2Proof.Proofs
end

section
/-! PROOFS. What a command that names one field does to the word: it commits the fields it finds after a map of
that field (spec/41_base_word.md R103 to R107, R110). -/

namespace Sys2Proof.Machine

open Sys2Proof.Safety

/-- What a setter makes of each of the four fields; a field not named is kept. -/
structure FieldMap where
  label : Label → Label := id
  sdi : Sdi → Sdi := id
  value : Value → Value := id
  ssm : Ssm → Ssm := id

/-- The word and the response left when the fields found are mapped and committed. -/
def FieldMap.effect (g : FieldMap) (w : Word) : Word × Response :=
  committed (g.label (labelOf w)) (g.sdi (sdiOf w)) (g.value (valueOf w)) (g.ssm (ssmOf w))

/-- The command maps the fields it finds by `g` and commits them. -/
def ActsAs (i : Instr) (g : FieldMap) : Prop := ∀ w, effectOf i w = g.effect w

/-! ### The setters and their maps -/

theorem setLabel_actsAs (f : FamilyCode) (l : Word) :
    ActsAs (.setLabel f l) { label := fun _ => maskLabel l } := fun _ => rfl

theorem setSdi_actsAs (f : FamilyCode) (x : Word) :
    ActsAs (.setSdi f x) { sdi := fun _ => maskSdi x } := fun _ => rfl

theorem setValue_actsAs (f : FamilyCode) (v : Word) :
    ActsAs (.setValue f v) { value := fun _ => maskValue v } := fun _ => rfl

theorem setSsm_actsAs (f : FamilyCode) (m : Word) :
    ActsAs (.setSsm f m) { ssm := fun _ => maskSsm m } := fun _ => rfl

theorem setBit_actsAs (f : FamilyCode) {index : Word} {k : Nat} (h : bitIndex index = some k) (on : Word) :
    ActsAs (.setBit f index on) { value := fun v => withValueBit v k (onOperand on) } := by
  intro w
  rw [effectOf_setBit, h]
  rfl

/-- SET_STATUS with a member of its family stores the member's code. -/
theorem aliasSetSsm_actsAs {fam : Family} {q : Status} {code : Ssm} (h : statusCode fam q = some code) :
    ActsAs (aliasSetSsm fam q) { ssm := fun _ => code } := by
  have hoperand : statusOperand fam ((statusNumber q).setWidth 32) = some code :=
    (statusOperand_eq_some_iff fam _ code).2 ⟨q, rfl, h⟩
  have heff : ∀ w, statusEffect fam ((statusNumber q).setWidth 32) w =
      committed (labelOf w) (sdiOf w) (valueOf w) code := fun w => by rw [statusEffect, hoperand]
  intro w
  cases fam with
  | discrete => exact (effectOf_setStatusD _ w).trans (heff w)
  | bnr => exact (effectOf_setStatusN _ w).trans (heff w)
  | bcd => exact (effectOf_setStatusB _ w).trans (heff w)

/-! ### The word a map leaves, bit by bit below the parity bit -/

/-- A bit of a word below the parity bit is a bit of one of the four fields. -/
theorem getLsbD_eq_fields (w : Word) {j : Nat} (hj : j < 31) :
    w.getLsbD j =
      if j < 8 then (labelOf w).getLsbD j else if j < 10 then (sdiOf w).getLsbD (j - 8)
      else if j < 29 then (valueOf w).getLsbD (j - 10) else (ssmOf w).getLsbD (j - 29) := by
  rw [← composite_getLsbD, ← commit_word_getLsbD _ _ _ _ (parityOf w) j hj, recombine_fields]

theorem FieldMap.effect_getLsbD (g : FieldMap) (w : Word) {j : Nat} (hj : j < 31) :
    (g.effect w).1.getLsbD j =
      if j < 8 then (g.label (labelOf w)).getLsbD j else if j < 10 then (g.sdi (sdiOf w)).getLsbD (j - 8)
      else if j < 29 then (g.value (valueOf w)).getLsbD (j - 10) else (g.ssm (ssmOf w)).getLsbD (j - 29) := by
  rw [FieldMap.effect, committed, commit_word_getLsbD _ _ _ _ _ j hj, composite_getLsbD]

/-- A map of one field leaves the bits outside that field as they were. -/
theorem effect_label_getLsbD (g : Label → Label) (w : Word) {j : Nat} (hj : j < 31) :
    (FieldMap.effect { label := g } w).1.getLsbD j =
      if j < 8 then (g (labelOf w)).getLsbD j else w.getLsbD j := by
  rw [FieldMap.effect_getLsbD _ w hj, getLsbD_eq_fields w hj]
  split_ifs <;> rfl

theorem effect_sdi_getLsbD (g : Sdi → Sdi) (w : Word) {j : Nat} (hj : j < 31) :
    (FieldMap.effect { sdi := g } w).1.getLsbD j =
      if 8 ≤ j ∧ j < 10 then (g (sdiOf w)).getLsbD (j - 8) else w.getLsbD j := by
  rw [FieldMap.effect_getLsbD _ w hj]
  by_cases hfield : 8 ≤ j ∧ j < 10
  · rw [if_pos hfield, if_neg (by omega), if_pos hfield.2]
  · rw [if_neg hfield, getLsbD_eq_fields w hj]
    split_ifs with h8 h10
    · rfl
    · omega
    · rfl
    · rfl

theorem effect_value_getLsbD (g : Value → Value) (w : Word) {j : Nat} (hj : j < 31) :
    (FieldMap.effect { value := g } w).1.getLsbD j =
      if 10 ≤ j ∧ j < 29 then (g (valueOf w)).getLsbD (j - 10) else w.getLsbD j := by
  rw [FieldMap.effect_getLsbD _ w hj]
  by_cases hfield : 10 ≤ j ∧ j < 29
  · rw [if_pos hfield, if_neg (by omega), if_neg (by omega), if_pos hfield.2]
  · rw [if_neg hfield, getLsbD_eq_fields w hj]
    split_ifs with h8 h10 h29
    · rfl
    · rfl
    · omega
    · rfl

theorem effect_ssm_getLsbD (g : Ssm → Ssm) (w : Word) {j : Nat} (hj : j < 31) :
    (FieldMap.effect { ssm := g } w).1.getLsbD j =
      if 29 ≤ j then (g (ssmOf w)).getLsbD (j - 29) else w.getLsbD j := by
  rw [FieldMap.effect_getLsbD _ w hj]
  by_cases hfield : 29 ≤ j
  · rw [if_pos hfield, if_neg (by omega), if_neg (by omega), if_neg (by omega)]
  · rw [if_neg hfield, getLsbD_eq_fields w hj, if_pos (by omega : j < 29), if_pos (by omega : j < 29)]
    rfl

/-- A command that maps the fields answers a next state: the mapped word, with odd popcount, no response and
the inputs untouched. -/
theorem exec_of_actsAs {i : Instr} {g : FieldMap} (h : ActsAs i g) (s : State) {bits : Nat → Bool}
    (hbits : ∀ j < 31, (g.effect s.w).1.getLsbD j = bits j) :
    ∃ t, exec i s = .next t ∧ (∀ j < 31, t.w.getLsbD j = bits j) ∧ popcount t.w % 2 = 1 ∧
      t.response = .silent ∧ t.inputs = s.inputs := by
  refine ⟨_, exec_eq i s, ?_⟩
  rw [h s.w]
  exact ⟨hbits, (popcount_recombine_odd_iff _ _ _ _ _).2 rfl, rfl, rfl⟩

/-! ### Maps that commute -/

/-- The two maps commute field by field. -/
def FieldMap.Commutes (g h : FieldMap) : Prop :=
  Function.Commute g.label h.label ∧ Function.Commute g.sdi h.sdi ∧ Function.Commute g.value h.value ∧
    Function.Commute g.ssm h.ssm

/-- Every map commutes with one that keeps everything. -/
theorem commute_of_eq_id {α : Type*} {f g : α → α} (h : g = id) : Function.Commute f g := h ▸ .id_right

/-- A map of one field commutes with every map that keeps that field. -/
theorem label_commutes {f : Label → Label} {h : FieldMap} (hkeep : h.label = id) :
    FieldMap.Commutes { label := f } h := ⟨commute_of_eq_id hkeep, .id_left, .id_left, .id_left⟩

theorem sdi_commutes {f : Sdi → Sdi} {h : FieldMap} (hkeep : h.sdi = id) :
    FieldMap.Commutes { sdi := f } h := ⟨.id_left, commute_of_eq_id hkeep, .id_left, .id_left⟩

theorem value_commutes {f : Value → Value} {h : FieldMap} (hkeep : h.value = id) :
    FieldMap.Commutes { value := f } h := ⟨.id_left, .id_left, commute_of_eq_id hkeep, .id_left⟩

theorem ssm_commutes {f : Ssm → Ssm} {h : FieldMap} (hkeep : h.ssm = id) :
    FieldMap.Commutes { ssm := f } h := ⟨.id_left, .id_left, .id_left, commute_of_eq_id hkeep⟩

/-- Mapping twice maps each field twice, because a committed word shows the fields committed. -/
theorem FieldMap.effect_effect (g h : FieldMap) (w : Word) :
    h.effect (g.effect w).1 = committed (h.label (g.label (labelOf w))) (h.sdi (g.sdi (sdiOf w)))
      (h.value (g.value (valueOf w))) (h.ssm (g.ssm (ssmOf w))) := by
  simp [FieldMap.effect]

/-- Two commands run one after the other: the second finds the word the first left. -/
theorem runCommands_pair (i j : Instr) (s : State) :
    runCommands [i, j] s = .next
      { s with w := (effectOf j (effectOf i s.w).1).1, response := (effectOf j (effectOf i s.w).1).2 } := by
  simp [runCommands, exec_eq]

theorem commuteFrom_of_actsAs {i j : Instr} {g h : FieldMap} (hi : ActsAs i g) (hj : ActsAs j h)
    (hcomm : g.Commutes h) (s : State) : commuteFrom s i j := by
  obtain ⟨hl, hx, hv, hm⟩ := hcomm
  refine ⟨_, runCommands_pair i j s, ?_⟩
  have heff : effectOf i (effectOf j s.w).1 = effectOf j (effectOf i s.w).1 := by
    rw [hi s.w, hj s.w, hi, hj, FieldMap.effect_effect, FieldMap.effect_effect, hl, hx, hv, hm]
  rw [runCommands_pair, heff]

/-- Writes to different bits of the value commute. -/
theorem withValueBit_commute {j k : Nat} (hj : j < 19) (hk : k < 19) (hne : j ≠ k) (p q : Bool) :
    Function.Commute (fun v => withValueBit v j p) (fun v => withValueBit v k q) := by
  intro v
  refine BitVec.eq_of_getLsbD_eq fun i _ => ?_
  simp only [withValueBit_getLsbD _ j _ i hj, withValueBit_getLsbD _ k _ i hk]
  by_cases hij : i = j
  · rw [if_pos hij, if_neg (hij ▸ hne), if_pos hij]
  · rw [if_neg hij, if_neg hij]

/-! ### Maps that leave the fields as they are -/

/-- The map keeps the fields this word holds. -/
def FieldMap.Fixes (g : FieldMap) (r : Word) : Prop :=
  g.label (labelOf r) = labelOf r ∧ g.sdi (sdiOf r) = sdiOf r ∧ g.value (valueOf r) = valueOf r ∧
    g.ssm (ssmOf r) = ssmOf r

/-- The word completed to odd parity by its bit 31. -/
def withOddParity (r : Word) : Word := if popcount r % 2 = 1 then r else r ^^^ 0x80000000#32

/-- Inverting the parity bit of a word of even popcount makes the popcount odd. -/
theorem popcount_xor_parityBit {r : Word} (h : ¬ popcount r % 2 = 1) :
    popcount (r ^^^ 0x80000000#32) % 2 = 1 := by
  have hlow : xorBits (r ^^^ 0x80000000#32) (List.range 31) = xorBits r (List.range 31) :=
    xorBits_congr fun j hj => xor_parityBit_getLsbD r (List.mem_range.1 hj)
  have htop : (r ^^^ 0x80000000#32).getLsbD 31 = !r.getLsbD 31 := by simp
  rw [popcount_mod_two, xorBits_range_32] at h ⊢
  rw [hlow, htop, Bool.xor_not]
  revert h
  cases xorBits r (List.range 31) ^^ r.getLsbD 31 <;> decide

/-- A word of odd popcount is its own fields committed. -/
theorem committed_fields_of_odd {u : Word} (h : popcount u % 2 = 1) :
    (committed (labelOf u) (sdiOf u) (valueOf u) (ssmOf u)).1 = u := by
  rw [← recombine_fields u, popcount_recombine_odd_iff] at h
  rw [committed, h, recombine_fields]

/-- Committing the fields held repairs the parity bit and does nothing else. -/
theorem committed_fields (r : Word) :
    (committed (labelOf r) (sdiOf r) (valueOf r) (ssmOf r)).1 = withOddParity r := by
  unfold withOddParity
  split_ifs with hodd
  · exact committed_fields_of_odd hodd
  · obtain ⟨hl, hx, hv, hm⟩ := sameFields_of_getLsbD fun j hj => (xor_parityBit_getLsbD r hj).symm
    rw [hl, hx, hv, hm]
    exact committed_fields_of_odd (popcount_xor_parityBit hodd)

theorem decode_then_fixing {i : Instr} {g : FieldMap} (h : ActsAs i g) {r : Word} (hfix : g.Fixes r)
    (f : FamilyCode) (s : State) :
    ∃ t, runCommands [.decode f r, i] s = .next t ∧ t.w = withOddParity r := by
  obtain ⟨hl, hx, hv, hm⟩ := hfix
  refine ⟨_, runCommands_pair _ i s, ?_⟩
  rw [effectOf_decode, h r, FieldMap.effect, hl, hx, hv, hm]
  exact committed_fields r

end Sys2Proof.Machine
end

section
/-! PROOFS. What the reading side of the Base Word commands rests on: operand ranges, single bits and fields as
numbers, and the table rows that read the operation number alone (spec/30_encoding.md R68, R73,
spec/41_base_word.md R102, R108, R109). -/

namespace Sys2Proof.Machine

/-- A command whose word a row of the table matches, as R73 writes it, decodes to what the row builds. -/
theorem decodeCommand_of_masked {c : Command} (n : Nat) {row : OpcodeRow} (hrow : opcodeTable[n]? = some row)
    (h : c.cmd &&& row.mask = row.pattern) : decodeCommand c = .ok (row.build c) :=
  decodeCommand_of_row n hrow (beq_iff_eq.2 h) rfl

/-- An index operand in 1..19 selects the bit below it. -/
theorem bitIndex_of_mem {index : Word} (hlow : 1 ≤ index.toNat) (hhigh : index.toNat ≤ 19) :
    ∃ k < 19, index.toNat = k + 1 ∧ bitIndex index = some k := by
  obtain ⟨k, hk⟩ : ∃ k, index.toNat = k + 1 := ⟨index.toNat - 1, by omega⟩
  exact ⟨k, by omega, hk, (bitIndex_eq_some_iff index k).2 ⟨hk, by omega⟩⟩

/-- Bit `k` of the value is bit `10 + k` of the word, and so bit `9 + a` for the index operand `a = k + 1`. -/
theorem valueOf_getLsbD_index (w : Word) {a k : Nat} (ha : a = k + 1) (hk : k < 19) :
    (valueOf w).getLsbD k = w.getLsbD (9 + a) := by
  rw [valueOf_getLsbD, ha, show 9 + (k + 1) = 10 + k by omega]
  simp [hk]

/-- A single bit, zero-extended to the result port. -/
theorem extractLsb'_one_setWidth (v : Value) (k : Nat) :
    (v.extractLsb' k 1).setWidth 32 = if v.getLsbD k then 1#32 else 0#32 := by
  have hbit : v.extractLsb' k 1 = BitVec.ofBool (v.getLsbD k) := by
    refine BitVec.eq_of_getLsbD_eq fun i hi => ?_
    simp [show i = 0 by omega]
  rw [hbit]
  cases v.getLsbD k <;> rfl

/-- A field zero-extended to an operand port is masked back to itself. -/
theorem extractLsb'_setWidth_self {n : Nat} (hn : n ≤ 32) (v : BitVec n) :
    (v.setWidth 32).extractLsb' 0 n = v := by
  rw [← BitVec.setWidth_eq_extractLsb' hn, BitVec.setWidth_setWidth_of_le v hn, BitVec.setWidth_eq]

theorem labelOf_toNat (r : Word) : (labelOf r).toNat = r.toNat % 2 ^ 8 := by
  rw [labelOf, BitVec.extractLsb'_toNat, Nat.shiftRight_zero]

theorem sdiOf_toNat (r : Word) : (sdiOf r).toNat = r.toNat / 2 ^ 8 % 2 ^ 2 := by
  rw [sdiOf, BitVec.extractLsb'_toNat, Nat.shiftRight_eq_div_pow]

theorem valueOf_toNat (r : Word) : (valueOf r).toNat = r.toNat / 2 ^ 10 % 2 ^ 19 := by
  rw [valueOf, BitVec.extractLsb'_toNat, Nat.shiftRight_eq_div_pow]

theorem ssmOf_toNat (r : Word) : (ssmOf r).toNat = r.toNat / 2 ^ 29 % 2 ^ 2 := by
  rw [ssmOf, BitVec.extractLsb'_toNat, Nat.shiftRight_eq_div_pow]

/-- The parity bit is the topmost: nothing of the word lies above it. -/
theorem parityOf_toNat (r : Word) : (parityOf r).toNat = r.toNat / 2 ^ 31 := by
  rw [parityOf, BitVec.extractLsb'_toNat, Nat.shiftRight_eq_div_pow]
  exact Nat.mod_eq_of_lt (Nat.div_lt_of_lt_mul r.isLt)

end Sys2Proof.Machine
end

section
/-! PROOFS. The statements about the Base Word commands (spec/41_base_word.md). -/

namespace Sys2Proof.Proofs

open Sys2Proof.Machine Sys2Proof.Safety

/-- Settles O10: DECODE's effect is the operand itself, and the fields are its slices. -/
theorem decodeHoldsRawVerbatim : Obligations.DecodeHoldsRawVerbatim := by
  refine ⟨fun c h => ⟨_, decodeCommand_of_masked 1 rfl h⟩, fun f raw s => ⟨_, exec_eq _ s, ?_⟩⟩
  rw [effectOf_decode]
  exact ⟨rfl, rfl, rfl, labelOf_toNat raw, sdiOf_toNat raw, valueOf_toNat raw, ssmOf_toNat raw,
    parityOf_toNat raw, beq_iff_eq⟩

/-- Settles O11: SET_LABEL maps the label to the masked operand. -/
theorem setLabelWritesLabelAndParity : Obligations.SetLabelWritesLabelAndParity := by
  refine ⟨fun c h => ⟨_, decodeCommand_of_masked 2 rfl h⟩,
    fun f l s => exec_of_actsAs (setLabel_actsAs f l) s fun j hj => ?_⟩
  rw [effect_label_getLsbD _ _ hj, maskLabel_getLsbD]
  split_ifs with hfield
  · simp [hfield]
  · rfl

/-- Settles O12: SET_SDI maps the sdi to the masked operand. -/
theorem setSdiWritesSdiAndParity : Obligations.SetSdiWritesSdiAndParity := by
  refine ⟨fun c h => ⟨_, decodeCommand_of_masked 3 rfl h⟩,
    fun f x s => exec_of_actsAs (setSdi_actsAs f x) s fun j hj => ?_⟩
  rw [effect_sdi_getLsbD _ _ hj, maskSdi_getLsbD]
  split_ifs with hfield
  · simp [show j - 8 < 2 by omega]
  · rfl

/-- Settles O13: SET_VALUE maps the value to the masked operand. -/
theorem setValueWritesValueAndParity : Obligations.SetValueWritesValueAndParity := by
  refine ⟨fun c h => ⟨_, decodeCommand_of_masked 4 rfl h⟩,
    fun f v s => exec_of_actsAs (setValue_actsAs f v) s fun j hj => ?_⟩
  rw [effect_value_getLsbD _ _ hj, maskValue_getLsbD]
  split_ifs with hfield
  · simp [show j - 10 < 19 by omega]
  · rfl

/-- Settles O14: SET_SSM maps the ssm to the masked operand. -/
theorem setSsmWritesSsmAndParity : Obligations.SetSsmWritesSsmAndParity := by
  refine ⟨fun c h => ⟨_, decodeCommand_of_masked 5 rfl h⟩,
    fun f x s => exec_of_actsAs (setSsm_actsAs f x) s fun j hj => ?_⟩
  rw [effect_ssm_getLsbD _ _ hj, maskSsm_getLsbD]
  split_ifs with hfield
  · simp [show j - 29 < 2 by omega]
  · rfl

/-- Settles O15: SET_BIT maps the value to the value with one bit written, or is ill formed and refused. -/
theorem setBitWritesOneValueBit : Obligations.SetBitWritesOneValueBit := by
  refine ⟨fun c h => ⟨_, decodeCommand_of_masked 6 rfl h⟩, fun f index on s hlow hhigh => ?_,
    fun f index on s hout => ?_⟩
  · obtain ⟨k, hk, hindex, hbit⟩ := bitIndex_of_mem hlow hhigh
    refine exec_of_actsAs (setBit_actsAs f hbit on) s fun j hj => ?_
    rw [effect_value_getLsbD _ _ hj, withValueBit_getLsbD _ k _ _ hk]
    by_cases hwritten : j = 9 + index.toNat
    · rw [if_pos (by omega), if_pos (by omega), if_pos hwritten]
      rfl
    · rw [if_neg hwritten]
      split_ifs with hfield hsame
      · omega
      · rw [valueOf_getLsbD_index s.w (a := j - 9) (by omega) (by omega)]
        congr 1; omega
      · rfl
  · have hnone := (bitIndex_eq_none_iff index).2 (by omega)
    rw [exec_eq, effectOf_setBit, hnone]

/-- Settles O16: GET_BIT answers one bit of the value, which is a bit of the word, or is refused. -/
theorem getBitAnswersOneValueBit : Obligations.GetBitAnswersOneValueBit := by
  refine ⟨fun c h => ⟨_, decodeCommand_of_masked 7 rfl h⟩, fun f index s hlow hhigh => ?_,
    fun f index s hout => ?_⟩
  · obtain ⟨k, hk, hindex, hbit⟩ := bitIndex_of_mem hlow hhigh
    rw [exec_eq, effectOf_getBit, hbit, ← valueOf_getLsbD_index s.w hindex hk, ← extractLsb'_one_setWidth]
  · have hnone := (bitIndex_eq_none_iff index).2 (by omega)
    rw [exec_eq, effectOf_getBit, hnone]

/-- Settles O17: GET_SSM answers the ssm slice of the word it keeps. -/
theorem getSsmAnswersStoredCode : Obligations.GetSsmAnswersStoredCode := by
  refine ⟨fun c h => ⟨_, decodeCommand_of_masked 8 rfl h⟩, fun f s => ⟨_, exec_eq _ s, ?_, rfl⟩⟩
  rw [← ssmOf_toNat]
  exact BitVec.toNat_setWidth_of_le (by decide)

/-- Settles O47: the setters map different fields, or different bits of the value. -/
theorem settersCommute : Obligations.SettersCommute := by
  refine ⟨fun f₁ f₂ f₃ f₄ l x v m s => ?_, fun f g a b p q s hne ha ha' hb hb' => ?_,
    fun f₁ f₂ f₃ g l x m index on s hlow hhigh => ?_, fun fam q code hcode =>
      ⟨fun f₁ f₂ f₃ l x v s => ?_, fun g index on s hlow hhigh => ?_⟩⟩
  · have hl := setLabel_actsAs f₁ l
    have hx := setSdi_actsAs f₂ x
    have hv := setValue_actsAs f₃ v
    have hm := setSsm_actsAs f₄ m
    simp only [List.pairwise_cons, List.forall_mem_cons]
    exact ⟨⟨commuteFrom_of_actsAs hl hx (label_commutes rfl) s,
      commuteFrom_of_actsAs hl hv (label_commutes rfl) s,
      commuteFrom_of_actsAs hl hm (label_commutes rfl) s, nofun⟩,
      ⟨commuteFrom_of_actsAs hx hv (sdi_commutes rfl) s,
        commuteFrom_of_actsAs hx hm (sdi_commutes rfl) s, nofun⟩,
      ⟨commuteFrom_of_actsAs hv hm (value_commutes rfl) s, nofun⟩, nofun, .nil⟩
  · obtain ⟨j, hj, haj, hbitj⟩ := bitIndex_of_mem ha ha'
    obtain ⟨k, hk, hbk, hbitk⟩ := bitIndex_of_mem hb hb'
    have hjk : j ≠ k := fun h => hne (BitVec.eq_of_toNat_eq (by omega))
    exact commuteFrom_of_actsAs (setBit_actsAs f hbitj p) (setBit_actsAs g hbitk q)
      ⟨.id_left, .id_left, withValueBit_commute hj hk hjk _ _, .id_left⟩ s
  · obtain ⟨k, -, -, hbit⟩ := bitIndex_of_mem hlow hhigh
    have hb := setBit_actsAs g hbit on
    simp only [List.forall_mem_cons]
    exact ⟨commuteFrom_of_actsAs hb (setLabel_actsAs f₁ l) (value_commutes rfl) s,
      commuteFrom_of_actsAs hb (setSdi_actsAs f₂ x) (value_commutes rfl) s,
      commuteFrom_of_actsAs hb (setSsm_actsAs f₃ m) (value_commutes rfl) s, nofun⟩
  · have hq := aliasSetSsm_actsAs hcode
    simp only [List.forall_mem_cons]
    exact ⟨commuteFrom_of_actsAs hq (setLabel_actsAs f₁ l) (ssm_commutes rfl) s,
      commuteFrom_of_actsAs hq (setSdi_actsAs f₂ x) (ssm_commutes rfl) s,
      commuteFrom_of_actsAs hq (setValue_actsAs f₃ v) (ssm_commutes rfl) s, nofun⟩
  · obtain ⟨k, -, -, hbit⟩ := bitIndex_of_mem hlow hhigh
    exact commuteFrom_of_actsAs (aliasSetSsm_actsAs hcode) (setBit_actsAs g hbit on) (ssm_commutes rfl) s

/-- Settles O48: a setter of what is held commits the fields held, with the parity bit they need. -/
theorem setterRepairsParity : Obligations.SetterRepairsParity := by
  refine ⟨fun f r s => ?_, fun f r index on s hlow hhigh hon => ?_⟩
  · have hl : maskLabel ((labelOf r).setWidth 32) = labelOf r := extractLsb'_setWidth_self (by decide) _
    have hx : maskSdi ((sdiOf r).setWidth 32) = sdiOf r := extractLsb'_setWidth_self (by decide) _
    have hv : maskValue ((valueOf r).setWidth 32) = valueOf r := extractLsb'_setWidth_self (by decide) _
    have hm : maskSsm ((ssmOf r).setWidth 32) = ssmOf r := extractLsb'_setWidth_self (by decide) _
    simp only [List.forall_mem_cons]
    exact ⟨decode_then_fixing (setLabel_actsAs f _) ⟨hl, rfl, rfl, rfl⟩ f s,
      decode_then_fixing (setSdi_actsAs f _) ⟨rfl, hx, rfl, rfl⟩ f s,
      decode_then_fixing (setValue_actsAs f _) ⟨rfl, rfl, hv, rfl⟩ f s,
      decode_then_fixing (setSsm_actsAs f _) ⟨rfl, rfl, rfl, hm⟩ f s, nofun⟩
  · obtain ⟨k, hk, hindex, hbit⟩ := bitIndex_of_mem hlow hhigh
    have hheld : withValueBit (valueOf r) k (onOperand on) = valueOf r := by
      rw [onOperand, hon, ← valueOf_getLsbD_index r hindex hk, withValueBit_getLsbD_self _ hk]
    exact decode_then_fixing (setBit_actsAs f hbit on) ⟨rfl, rfl, hheld, rfl⟩ f s

/-- Settles O9: EMPTY's effect is the zero word, which has even parity, and a setter afterwards commits. -/
theorem emptyClearsWord : Obligations.EmptyClearsWord := by
  refine ⟨fun c h => ⟨_, decodeCommand_of_masked 0 rfl h⟩, fun f g s => ⟨_, exec_eq _ s, ?_⟩⟩
  rw [effectOf_empty]
  have hparity : parityOf 0#32 = 0#1 := by decide
  have hpcalc : parityBit (labelOf 0#32) (sdiOf 0#32) (valueOf 0#32) (ssmOf 0#32) = 1#1 := by decide
  have hlabel : (committed (maskLabel 0) (sdiOf 0#32) (valueOf 0#32) (ssmOf 0#32)).1 = 0x80000000#32 := by
    decide
  refine ⟨rfl, rfl, rfl, parityOK_zero, hparity, hpcalc, ⟨_, exec_eq _ _, hlabel⟩, fun i hi => ?_⟩
  obtain ⟨u, hu, hodd, -⟩ := parityAfterEveryCommand.2.2 i { s with w := 0#32, response := .silent }
  exact ⟨u, hu, fun hill => hodd hill hi⟩

end Sys2Proof.Proofs
end

section
/-! PROOFS. Commands run one after the other as a fold over the states they leave, whatever the order of
commands that commute (spec/20_memory.md R49, spec/41_base_word.md R110). -/

namespace Sys2Proof.Machine

open Sys2Proof.Safety

/-- The state a command leaves. -/
def State.afterCommand (s : State) (i : Instr) : State :=
  { s with w := (effectOf i s.w).1, response := (effectOf i s.w).2 }

theorem exec_eq_afterCommand (i : Instr) (s : State) : exec i s = .next (s.afterCommand i) := exec_eq i s

/-- A run of commands folds the states they leave. -/
theorem runCommands_eq_foldl (is : List Instr) (s : State) :
    runCommands is s = .next (is.foldl State.afterCommand s) := by
  induction is generalizing s with
  | nil => rfl
  | cons i is ih =>
    rw [runCommands, exec_eq_afterCommand]
    exact ih (s.afterCommand i)

/-- Commands that commute from a state leave the same state in both orders. -/
theorem afterCommand_comm {s : State} {i j : Instr} (h : commuteFrom s i j) :
    (s.afterCommand i).afterCommand j = (s.afterCommand j).afterCommand i := by
  obtain ⟨t, hij, hji⟩ := h
  have hrun : runCommands [i, j] s = runCommands [j, i] s := hij.trans hji.symm
  rw [runCommands_eq_foldl, runCommands_eq_foldl] at hrun
  exact Host.Outcome.next.inj hrun

theorem commuteFrom_symm (s : State) : Std.Symm (commuteFrom s) :=
  ⟨fun _ _ ⟨t, hij, hji⟩ => ⟨t, hji, hij⟩⟩

theorem commuteFrom_self (s : State) (i : Instr) : commuteFrom s i i :=
  ⟨_, runCommands_eq_foldl _ s, runCommands_eq_foldl _ s⟩

/-- Commands that commute pairwise from every state may be run in any order. -/
theorem runCommands_perm {is js : List Instr} (hperm : is.Perm js)
    (hcomm : ∀ s, js.Pairwise (commuteFrom s)) (s : State) : runCommands is s = runCommands js s := by
  have hall : ∀ i ∈ js, ∀ j ∈ js, ∀ s : State,
      (s.afterCommand i).afterCommand j = (s.afterCommand j).afterCommand i := fun i hi j hj s =>
    have := commuteFrom_symm s
    afterCommand_comm ((hcomm s).forall_of_forall (fun i _ => commuteFrom_self s i) hi hj)
  rw [runCommands_eq_foldl, runCommands_eq_foldl, hperm.symm.foldl_eq' hall s]

end Sys2Proof.Machine
end

section
/-! PROOFS. The rules of the word-family commands: their rows of the decode table, BCD_NEW as a map of all four
fields, GET_STATUS and SET_STATUS for any family (spec/30_encoding.md R73, spec/42_word_families.md R121 to
R128). -/

namespace Sys2Proof.Machine

/-- A command with the pattern of a row for its word decodes to what the row builds. -/
theorem decodeCommand_of_pattern {c : Command} (n : Nat) {row : OpcodeRow} (hrow : opcodeTable[n]? = some row)
    (h : c.cmd = row.pattern) : decodeCommand c = .ok (row.build c) :=
  decodeCommand_of_row n hrow (h ▸ hits_pattern n row hrow) rfl

/-- No row matches operation number 9 with a family other than BCD (decision D4). -/
theorem not_hits_of_bcdNew_otherFamily : ∀ cmd : CommandWord, cmd.toNat % 16 = 9 → cmd.toNat / 16 ≠ 3 →
    ∀ row ∈ opcodeTable, row.hits cmd = false := by decide

/-- BCD_NEW replaces all four fields. -/
theorem bcdNew_actsAs (l x v m : Word) : ActsAs (.bcdNew l x v m)
    { label := fun _ => maskLabel l, sdi := fun _ => maskSdi x, value := fun _ => maskValue v,
      ssm := fun _ => maskSsm m } := fun _ => rfl

/-- A command that maps the fields leaves the mapped word. -/
theorem exec_eq_of_actsAs {i : Instr} {g : FieldMap} (h : ActsAs i g) (s : State) :
    exec i s = .next { s with w := (g.effect s.w).1, response := (g.effect s.w).2 } := by
  rw [exec_eq, h s.w]

/-! ### GET_STATUS -/

/-- What GET_STATUS of a family answers for a stored code. -/
def statusAnswer (fam : Family) (x : Ssm) : Word := (statusNumber (statusOf fam x)).setWidth 32

theorem effectOf_aliasGetSsm (fam : Family) (w : Word) :
    effectOf (aliasGetSsm fam) w = (w, .answer (statusAnswer fam (ssmOf w))) := by
  cases fam with
  | discrete => exact effectOf_getStatusD w
  | bnr => exact effectOf_getStatusN w
  | bcd => exact effectOf_getStatusB w

theorem exec_aliasGetSsm (fam : Family) (s : State) :
    exec (aliasGetSsm fam) s = .next { s with response := .answer (statusAnswer fam (ssmOf s.w)) } := by
  rw [exec_eq, effectOf_aliasGetSsm]

/-- A function of the stored code, spelled out over bits 30 and 29 of the word. -/
theorem apply_ssmOf {α : Type*} (g : Ssm → α) (w : Word) :
    g (ssmOf w) = if w.getLsbD 30 then (if w.getLsbD 29 then g 3 else g 2)
      else (if w.getLsbD 29 then g 1 else g 0) := by
  have hcode : ∀ x : Ssm, x = if x.getLsbD 1 then (if x.getLsbD 0 then 3 else 2)
      else (if x.getLsbD 0 then 1 else 0) := by decide
  have h30 : (ssmOf w).getLsbD 1 = w.getLsbD 30 := ssmOf_getLsbD w 1
  have h29 : (ssmOf w).getLsbD 0 = w.getLsbD 29 := ssmOf_getLsbD w 0
  rw [hcode (ssmOf w), h30, h29]
  split_ifs <;> rfl

/-- GET_STATUS of a family answers its table's entry for bits 30 and 29. -/
theorem exec_aliasGetSsm_bits (fam : Family) (s : State) :
    exec (aliasGetSsm fam) s = .next { s with
      response := .answer (if s.w.getLsbD 30 then
          (if s.w.getLsbD 29 then statusAnswer fam 3 else statusAnswer fam 2)
        else (if s.w.getLsbD 29 then statusAnswer fam 1 else statusAnswer fam 0)) } := by
  rw [exec_aliasGetSsm, apply_ssmOf (statusAnswer fam)]

/-! ### SET_STATUS -/

/-- SET_STATUS of a family, on any operand. -/
def setStatusOf (fam : Family) (a : Word) : Instr :=
  match fam with
  | .discrete => .setStatusD a
  | .bnr => .setStatusN a
  | .bcd => .setStatusB a

theorem effectOf_setStatusOf (fam : Family) (a w : Word) :
    effectOf (setStatusOf fam a) w = statusEffect fam a w := by
  cases fam with
  | discrete => exact effectOf_setStatusD a w
  | bnr => exact effectOf_setStatusN a w
  | bcd => exact effectOf_setStatusB a w

/-- An operand that is a member's code stands for a code. -/
theorem exists_statusOperand {fam : Family} {a : Word} (h : noMember fam a.toNat = false) :
    ∃ code, statusOperand fam a = some code :=
  Option.ne_none_iff_exists'.1 fun hnone => by simp [(statusOperand_eq_none_iff fam a).1 hnone] at h

/-- SET_STATUS with an operand that stands for a code stores that code. -/
theorem setStatusOf_actsAs {fam : Family} {a : Word} {code : Ssm} (h : statusOperand fam a = some code) :
    ActsAs (setStatusOf fam a) { ssm := fun _ => code } := by
  intro w
  rw [effectOf_setStatusOf, statusEffect, h]
  rfl

/-- An operand that is no member's code is refused, and the state kept. -/
theorem exec_setStatusOf_of_noMember {fam : Family} {a : Word} (h : noMember fam a.toNat = true) (s : State) :
    exec (setStatusOf fam a) s = .next { s with response := .illegal .badStatus } := by
  rw [exec_eq, effectOf_setStatusOf, statusEffect, (statusOperand_eq_none_iff fam a).2 h]

/-- An operand whose member's code has the bits `low` and `high` is accepted: bits 29 and 30 become these two,
the bits below stay. -/
theorem exec_setStatusOf_of_member {fam : Family} {a : Word} (hmember : noMember fam a.toNat = false)
    {low high : Bool} (hbits : ∀ code, statusOperand fam a = some code →
      code.getLsbD 0 = low ∧ code.getLsbD 1 = high) (s : State) :
    ∃ t, exec (setStatusOf fam a) s = .next t ∧
      (∀ i < 31, t.w.getLsbD i = if i = 29 then low else if i = 30 then high else s.w.getLsbD i) ∧
      popcount t.w % 2 = 1 ∧ t.response = .silent ∧ t.inputs = s.inputs := by
  obtain ⟨code, hcode⟩ := exists_statusOperand hmember
  obtain ⟨hlow, hhigh⟩ := hbits code hcode
  refine exec_of_actsAs (setStatusOf_actsAs hcode) s fun j hj => ?_
  rw [effect_ssm_getLsbD _ _ hj]
  by_cases h29 : j = 29
  · rw [if_pos (by omega), if_pos h29, h29, ← hlow]
  · by_cases h30 : j = 30
    · rw [if_pos (by omega), if_neg h29, if_pos h30, h30, ← hhigh]
    · rw [if_neg (by omega), if_neg h29, if_neg h30]

/-! ### The two bits of the code an accepted operand stands for, family by family (R125 to R127) -/

theorem statusOperand_discrete_bits {a : Word} {code : Ssm} (h : statusOperand .discrete a = some code) :
    code.getLsbD 0 = a.getLsbD 0 ∧ code.getLsbD 1 = a.getLsbD 1 := by
  obtain ⟨q, rfl, hcode⟩ := (statusOperand_eq_some_iff .discrete a code).1 h
  revert code; cases q <;> decide

theorem statusOperand_bnr_bits {a : Word} {code : Ssm} (h : statusOperand .bnr a = some code) :
    code.getLsbD 0 = decide (a.toNat = 0 ∨ a.toNat = 1) ∧
      code.getLsbD 1 = decide (a.toNat = 0 ∨ a.toNat = 2) := by
  obtain ⟨q, rfl, hcode⟩ := (statusOperand_eq_some_iff .bnr a code).1 h
  revert code; cases q <;> decide

theorem statusOperand_bcd_bits {a : Word} {code : Ssm} (h : statusOperand .bcd a = some code) :
    code.getLsbD 0 = decide (a.toNat = 1 ∨ a.toNat = 5) ∧
      code.getLsbD 1 = decide (a.toNat = 2 ∨ a.toNat = 5) := by
  obtain ⟨q, rfl, hcode⟩ := (statusOperand_eq_some_iff .bcd a code).1 h
  revert code; cases q <;> decide

/-- The BCD members are those numbered 1, 2, 4 and 5. -/
theorem noMember_bcd (n : Nat) : noMember .bcd n = decide (n ∉ [1, 2, 4, 5]) := by simp [noMember]

end Sys2Proof.Machine
end

section
/-! PROOFS. The statements about the word-family commands (spec/42_word_families.md). -/

namespace Sys2Proof.Proofs

open Sys2Proof.Machine Sys2Proof.Safety

/-- Settles O18: BCD_NEW maps every field to its masked operand. -/
theorem bcdNewBuildsWord : Obligations.BcdNewBuildsWord := by
  refine ⟨fun c h => decodeCommand_of_pattern 9 rfl h, fun c hop hfam => ?_,
    fun l x v m s => exec_of_actsAs (bcdNew_actsAs l x v m) s fun j hj => ?_⟩
  · rw [decodeCommand_of_no_hits (not_hits_of_bcdNew_otherFamily c.cmd hop hfam), if_neg (by omega)]
  · rw [FieldMap.effect_getLsbD _ _ hj, maskLabel_getLsbD, maskSdi_getLsbD, maskValue_getLsbD,
      maskSsm_getLsbD]
    split_ifs with h8 h10 h29
    · simp [h8]
    · simp [show j - 8 < 2 by omega]
    · simp [show j - 10 < 19 by omega]
    · simp [show j - 29 < 2 by omega]

/-- Settles O19: each GET_STATUS answers by its family's table, entry by entry. -/
theorem getStatusAnswersFamilyCode : Obligations.GetStatusAnswersFamilyCode :=
  ⟨fun _ h => decodeCommand_of_pattern 10 rfl h, fun _ h => decodeCommand_of_pattern 11 rfl h,
    fun _ h => decodeCommand_of_pattern 12 rfl h, exec_aliasGetSsm_bits .discrete, exec_aliasGetSsm_bits .bnr,
    exec_aliasGetSsm_bits .bcd⟩

/-- Settles O49: the four setters commute, and in the order of the fields each replaces its field. -/
theorem bcdNewEqualsFourSetters : Obligations.BcdNewEqualsFourSetters := by
  intro f l x v m s is hperm
  refine ⟨_, ?_, exec_eq _ s⟩
  rw [runCommands_perm hperm (fun s => settersCommute.1 f f f f l x v m s), runCommands_eq_foldl]
  simp [State.afterCommand, effectOf_setLabel, effectOf_setSdi, effectOf_setValue, effectOf_setSsm,
    effectOf_bcdNew]

/-- Settles O20: the Discrete code of a member is the member's number. -/
theorem setStatusDWritesDiscreteCode : Obligations.SetStatusDWritesDiscreteCode :=
  ⟨fun _ h => decodeCommand_of_pattern 13 rfl h,
    fun _ s ha => exec_setStatusOf_of_member (fam := .discrete) (decide_eq_false (by omega))
      (fun _ => statusOperand_discrete_bits) s,
    fun _ s ha => exec_setStatusOf_of_noMember (fam := .discrete) (decide_eq_true ha) s⟩

/-- Settles O21: the BNR code of a member is its number with 0 and 3 exchanged. -/
theorem setStatusNWritesBnrCode : Obligations.SetStatusNWritesBnrCode :=
  ⟨fun _ h => decodeCommand_of_pattern 14 rfl h,
    fun _ s ha => exec_setStatusOf_of_member (fam := .bnr) (decide_eq_false (by omega))
      (fun _ => statusOperand_bnr_bits) s,
    fun _ s ha => exec_setStatusOf_of_noMember (fam := .bnr) (decide_eq_true ha) s⟩

/-- Settles O22: the BCD codes are those of the members numbered 4, 1, 2 and 5. -/
theorem setStatusBWritesBcdCode : Obligations.SetStatusBWritesBcdCode :=
  ⟨fun _ h => decodeCommand_of_pattern 15 rfl h,
    fun _ s ha => exec_setStatusOf_of_member (fam := .bcd)
      ((noMember_bcd _).trans (decide_eq_false (not_not_intro ha))) (fun _ => statusOperand_bcd_bits) s,
    fun _ s ha => exec_setStatusOf_of_noMember (fam := .bcd) ((noMember_bcd _).trans (decide_eq_true ha)) s⟩

/-- Settles O51: GET_STATUS reads the ssm field alone, and the four setters of ssm 3 act as the same map. -/
theorem statusReinterpretation : Obligations.StatusReinterpretation := by
  refine ⟨fun s fam => exec_aliasGetSsm fam s,
    fun f s => ⟨_, ?_, ?_, ?_, exec_eq_of_actsAs (setSsm_actsAs f 3) s⟩,
    fun s x y q code hcode => ⟨_, runCommands_pair _ _ s, ?_⟩⟩
  · exact exec_eq_of_actsAs (aliasSetSsm_actsAs (fam := .discrete) (q := .failureWarning) rfl) s
  · exact exec_eq_of_actsAs (aliasSetSsm_actsAs (fam := .bnr) (q := .normalOperation) rfl) s
  · exact exec_eq_of_actsAs (aliasSetSsm_actsAs (fam := .bcd) (q := .minusSouthWestLeftFromBelow) rfl) s
  · rw [effectOf_aliasGetSsm, aliasSetSsm_actsAs hcode, FieldMap.effect, ssmOf_committed]
    rfl

end Sys2Proof.Proofs
end

section
/-! PROOFS. The step that takes a command R69 refuses, and runs that take one input a step
(spec/60_exceptions.md R141, R144, R149). -/

namespace Sys2Proof.Machine

open Sys2Proof.Safety

/-- Pins with a command valid and without reset are that command presented. -/
theorem eq_present {pins : PortInput} (hreset : pins.reset = false) (hvalid : pins.cmdValid = true) :
    pins = present pins.command := by
  rw [present, ← hreset, ← hvalid]

/-- A command in R69's table leaves the word and reports the table's cause, whether the decoder raises it or the
command decoded. -/
theorem pinsEffect_present_of_illegalCause {c : Command} {e : IllegalCause} (h : illegalCause c = some e)
    (w : Word) : pinsEffect (present c) w = (w, .illegal e) := by
  cases hd : decodeCommand c with
  | error cause =>
    obtain rfl : cause = e := by simpa [illegalCause_of_error hd] using h
    exact pinsEffect_present_of_error hd w
  | ok i =>
    obtain ⟨hwf, rfl⟩ : i.wellFormed = false ∧ operandCause i = e := by simpa [illegalCause_of_ok hd] using h
    rw [pinsEffect_present_of_ok hd, effectOf_of_not_wellFormed hwf]

/-- A step whose oldest input is known has the effect of those pins. -/
theorem step_of_inputs {s : State} {pins : PortInput} {rest : List PortInput} (h : s.inputs = pins :: rest) :
    step s = .next ⟨(pinsEffect pins s.w).1, (pinsEffect pins s.w).2, rest⟩ := by
  rw [← step_inputs_cons, ← h]

/-- A step that takes a command in R69's table changes the response alone. -/
theorem step_of_illegalCause {s : State} {pins : PortInput} {rest : List PortInput} {e : IllegalCause}
    (hin : s.inputs = pins :: rest) (hreset : pins.reset = false) (hvalid : pins.cmdValid = true)
    (hcause : illegalCause pins.command = some e) :
    step s = .next { s with response := .illegal e, inputs := rest } := by
  rw [step_of_inputs hin, eq_present hreset hvalid, pinsEffect_present_of_illegalCause hcause]

/-- What is no refusal has cause code 0. -/
theorem illCause_of_not_ill {r : Response} (h : r.ill = false) : r.illCause = 0#3 := by
  cases r with
  | illegal cause => cases h
  | silent => rfl
  | answer v => rfl

end Sys2Proof.Machine
end

section
/-! PROOFS. The statements about IllegalCommand and about runs that never halt (spec/60_exceptions.md). -/

namespace Sys2Proof.Proofs

open Sys2Proof.Machine Sys2Proof.Safety

/-- Settles O23: what is in R69's table is refused with its cause, and what is not lies inside the contract. -/
theorem illegalCommandExactlyByTable : Obligations.IllegalCommandExactlyByTable := by
  refine ⟨fun s pins rest hin hreset hvalid => ⟨fun e => step_of_illegalCause hin hreset hvalid, fun hnone => ?_⟩,
    fun s pins rest hin hreset hvalid => ?_, fun e => ⟨rfl, rfl, rfl⟩, rfl, rfl, rfl, rfl⟩
  · have hill := pinsEffect_not_ill (pins := pins) (fun _ _ => hnone) s.w
    exact ⟨_, step_of_inputs hin, hill, illCause_of_not_ill hill⟩
  · obtain ⟨t, hstep, -, -, hill, hcode, -⟩ := idleStepLeavesWord.1 s pins rest hin hreset hvalid
    exact ⟨t, hstep, hill, hcode⟩

/-- Settles O25: the refusal changes the response alone, which the next step does not read. -/
theorem refusalLeavesNoTrace : Obligations.RefusalLeavesNoTrace := by
  intro s pins rest e hin hreset hvalid hcause
  exact ⟨_, step_of_illegalCause hin hreset hvalid hcause, stepReadsOnlyWordAndInputs _ _ rfl rfl⟩

/-- Settles O31, by induction on the length of the run: every step answers and takes one input. -/
theorem everyRunCompletes : Obligations.EveryRunCompletes := by
  intro k
  induction k with
  | zero => exact fun s => ⟨s, rfl, rfl⟩
  | succ k ih =>
    intro s
    obtain ⟨t, hrun, hin⟩ := ih _
    refine ⟨t, (run_succ_of_step (step_eq s) k).trans hrun, ?_⟩
    rw [hin, takeInput_inputs, List.drop_drop, Nat.add_comm]

end Sys2Proof.Proofs
end

section
/-! PROOFS. The step that takes a reset, the step that takes a command that decodes, and the zero word read
(spec/70_reset_and_hazards.md R160, R161, R168). -/

namespace Sys2Proof.Machine

/-- What a table word decodes to is what the command it stands for decodes to. -/
theorem decodeCommand_of_decodeTableWord {nbits w : Nat} {i : Instr} (h : decodeTableWord nbits w = some i) :
    decodeCommand (tableCommand nbits w) = .ok i := by
  unfold decodeTableWord at h
  cases hd : decodeCommand (tableCommand nbits w) with
  | ok j => rw [hd] at h; cases h; rfl
  | error e => rw [hd] at h; cases h

/-- A step that takes a command that decodes runs it on the state with that input taken. -/
theorem step_of_decodeCommand {s : State} {pins : PortInput} {rest : List PortInput} {i : Instr}
    (hin : s.inputs = pins :: rest) (hreset : pins.reset = false) (hvalid : pins.cmdValid = true)
    (hd : decodeCommand pins.command = .ok i) : step s = exec i { s with inputs := rest } := by
  rw [step_of_inputs hin, eq_present hreset hvalid, pinsEffect_present_of_ok hd, exec_eq]

/-- Pins with reset asserted clear the word and answer nothing, whatever else they carry. -/
theorem pinsEffect_of_reset {pins : PortInput} (h : pins.reset = true) (w : Word) :
    pinsEffect pins w = (0#32, .silent) := by
  simp [pinsEffect, eventOf, h]

/-- Every field of the zero word is zero. -/
theorem demux_zero : demux 0#32 = ⟨0#8, 0#2, 0#19, 0#2, 0#1⟩ := by decide

/-- The parity bit computed for zero fields completes them to odd parity. -/
theorem parityBit_zero : parityBit 0#8 0#2 0#19 0#2 = 1#1 := by decide

end Sys2Proof.Machine
end

section
/-! PROOFS. The statements about reset and about the step that runs a command
(spec/70_reset_and_hazards.md). -/

namespace Sys2Proof.Proofs

open Sys2Proof.Machine

/-- Settles O5: the command taken is the one presented, and a table word is presented as its command. -/
theorem stepRunsDecodedCommand : Obligations.StepRunsDecodedCommand :=
  ⟨fun _ _ _ _ => step_of_decodeCommand, fun s nbits w _ hw =>
    step_of_decodeCommand (withFetchWord_inputs s nbits w) rfl rfl (decodeCommand_of_decodeTableWord hw)⟩

/-- Settles O6: the effect of reset is the effect of EMPTY, whatever command comes with it. -/
theorem resetEventClearsWord : Obligations.ResetEventClearsWord := by
  intro s pins rest f hin hreset
  have hstep := step_of_inputs hin
  rw [pinsEffect_of_reset hreset] at hstep
  refine ⟨_, hstep, rfl, rfl, rfl, rfl, rfl, rfl, ?_⟩
  rw [exec_eq, effectOf_empty]

/-- Settles O8: the word after reset is the zero word; its fields are zero, the parity bit computed for them is
1, and its own parity is even. -/
theorem resetValues : Obligations.ResetValues := by
  obtain ⟨hl, hx, hv, hm, hp⟩ := Fields.mk.inj demux_zero
  have hpcalc : State.reset.pcalcO = 1#1 := by
    simp only [State.pcalcO, State.labelO, State.sdiO, State.valueO, State.ssmO, reset_w, hl, hx, hv, hm,
      parityBit_zero]
  exact ⟨reset_w, hl, hx, hv, hm, hp, rfl, rfl, rfl, reset_w, hl, hx, hv, hm, hp, hpcalc, parityOK_zero,
    rfl, rfl, rfl, rfl⟩

end Sys2Proof.Proofs
end
